-- ==== Sys2Proof/Word.lean ====
section
/-! DEFINITION. Word.lean: the widths of the machine's data (spec/00_scope.md R7, R9). -/

namespace Sys2Proof

/-- An 8-bit datum: a general register, a byte of memory, a timer, the immediate NN (R7 `REG_W`, `TIMER_W`). -/
abbrev Byte := BitVec 8

/-- A 16-bit datum: an instruction word, `pc`, `I`, a stack entry (R7 `I_W`, `PC_W`, `STACK_ENTRY_W`). -/
abbrev Word := BitVec 16

/-- The immediate NNN, a 12-bit address (R52). -/
abbrev Addr12 := BitVec 12

/-- A register index: the fields X and Y (R14, R52). No index is out of range and none is an alias. -/
abbrev Reg := Fin 16

/-- VF, register 0xF, the implicit carry, borrow and collision flag (R15). -/
abbrev VF : Reg := 15

/-- V0, the implicit operand of BNNN (R76). -/
abbrev V0 : Reg := 0

end Sys2Proof
end

