-- ==== Sys2Proof/Syntax.lean ====
section
/-! DEFINITION. Syntax.lean: the 34 instructions of spec/opcode_table.json, one constructor per row (R2, R57). -/

namespace Sys2Proof

/-- The instructions. Every operand's bound stands in its type, so every term is an instruction of the table: `x` and `y` are the
fields X and Y, `n` is N, `nn` is NN and `nnn` is NNN (R52). Named after the mnemonics of R61. -/
inductive Instr where
  /-- 00E0 `CLS` (R102). -/
  | cls
  /-- 00EE `RET` (R68). -/
  | ret
  /-- 1NNN `JP addr` (R69). -/
  | jp (nnn : Addr12)
  /-- 2NNN `CALL addr` (R70). -/
  | call (nnn : Addr12)
  /-- 3XNN `SE Vx, byte` (R72). -/
  | seImm (x : Reg) (nn : Byte)
  /-- 4XNN `SNE Vx, byte` (R73). -/
  | sneImm (x : Reg) (nn : Byte)
  /-- 5XY0 `SE Vx, Vy` (R74). -/
  | seReg (x y : Reg)
  /-- 6XNN `LD Vx, byte` (R79). -/
  | ldImm (x : Reg) (nn : Byte)
  /-- 7XNN `ADD Vx, byte` (R80). -/
  | addImm (x : Reg) (nn : Byte)
  /-- 8XY0 `LD Vx, Vy` (R82). -/
  | ldReg (x y : Reg)
  /-- 8XY1 `OR Vx, Vy` (R83). -/
  | orReg (x y : Reg)
  /-- 8XY2 `AND Vx, Vy` (R84). -/
  | andReg (x y : Reg)
  /-- 8XY3 `XOR Vx, Vy` (R85). -/
  | xorReg (x y : Reg)
  /-- 8XY4 `ADD Vx, Vy` (R86). -/
  | addReg (x y : Reg)
  /-- 8XY5 `SUB Vx, Vy` (R87). -/
  | subReg (x y : Reg)
  /-- 8XY6 `SHR Vx {, Vy}` (R88); Y is decoded and ignored (R59). -/
  | shr (x y : Reg)
  /-- 8XY7 `SUBN Vx, Vy` (R89). -/
  | subn (x y : Reg)
  /-- 8XYE `SHL Vx {, Vy}` (R90); Y is decoded and ignored (R59). -/
  | shl (x y : Reg)
  /-- 9XY0 `SNE Vx, Vy` (R75). -/
  | sneReg (x y : Reg)
  /-- ANNN `LD I, addr` (R94). -/
  | ldI (nnn : Addr12)
  /-- BNNN `JP V0, addr` (R76). -/
  | jpV0 (nnn : Addr12)
  /-- CXNN `RND Vx, byte` (R91). -/
  | rnd (x : Reg) (nn : Byte)
  /-- DXYN `DRW Vx, Vy, nibble` (R108). -/
  | drw (x y : Reg) (n : Fin 16)
  /-- EX9E `SKP Vx` (R111). -/
  | skp (x : Reg)
  /-- EXA1 `SKNP Vx` (R112). -/
  | sknp (x : Reg)
  /-- FX07 `LD Vx, DT` (R113). -/
  | ldVxDT (x : Reg)
  /-- FX0A `LD Vx, K` (R114). -/
  | ldVxK (x : Reg)
  /-- FX15 `LD DT, Vx` (R116). -/
  | ldDTVx (x : Reg)
  /-- FX18 `LD ST, Vx` (R117). -/
  | ldSTVx (x : Reg)
  /-- FX1E `ADD I, Vx` (R95). -/
  | addI (x : Reg)
  /-- FX29 `LD F, Vx` (R96). -/
  | ldF (x : Reg)
  /-- FX33 `LD B, Vx` (R97). -/
  | ldB (x : Reg)
  /-- FX55 `LD [I], Vx` (R99). -/
  | storeRegs (x : Reg)
  /-- FX65 `LD Vx, [I]` (R100). -/
  | loadRegs (x : Reg)
  deriving DecidableEq, Repr

end Sys2Proof
end

