-- ==== Sys2Proof/WellFormed.lean ====
section
/-! DEFINITION. WellFormed.lean: well-formedness. The operands of Instr carry their bounds in their types (Fin 16, BitVec 8,
BitVec 12), so no ill-formed Instr can be built. The check stands on the numbers a program's source line is written with:
the assembler notation of spec/30_encoding.md R61 and R62, whose operands are plain numbers. -/

namespace Sys2Proof

/-- One line of a program in the notation of R61, its operands as numbers, and the data lines of R62 ("a data byte in a program
is written as the raw hex word or byte it occupies"). One constructor per row of the table of R61; `SHR` and `SHL` have the
optional `Vy` of R62 (log entry 13). -/
inductive Asm where
  | cls | ret
  | jp (addr : Nat) | call (addr : Nat)
  | seImm (x byte : Nat) | sneImm (x byte : Nat) | seReg (x y : Nat)
  | ldImm (x byte : Nat) | addImm (x byte : Nat)
  | ldReg (x y : Nat) | orReg (x y : Nat) | andReg (x y : Nat) | xorReg (x y : Nat) | addReg (x y : Nat) | subReg (x y : Nat)
  | shr (x : Nat) (y : Option Nat) | subn (x y : Nat) | shl (x : Nat) (y : Option Nat)
  | sneReg (x y : Nat)
  | ldI (addr : Nat) | jpV0 (addr : Nat) | rnd (x byte : Nat) | drw (x y nibble : Nat)
  | skp (x : Nat) | sknp (x : Nat)
  | ldVxDT (x : Nat) | ldVxK (x : Nat) | ldDTVx (x : Nat) | ldSTVx (x : Nat) | addI (x : Nat) | ldF (x : Nat) | ldB (x : Nat)
  | storeRegs (x : Nat) | loadRegs (x : Nat)
  | dataWord (w : Nat) | dataByte (b : Nat)
  deriving DecidableEq, Repr

namespace WellFormed

/-- `Vx` and `Vy` are `V0`..`VF`; `nibble` is a 4-bit number (R61). -/
def nibble (n : Nat) : Bool := decide (n < 0x10)

/-- `byte` is an 8-bit number (R61). -/
def byte (n : Nat) : Bool := decide (n < 0x100)

/-- `addr` is a 12-bit number (R61). -/
def addr (n : Nat) : Bool := decide (n < 0x1000)

/-- A raw data word is 16 bits (R52, R62). -/
def word (n : Nat) : Bool := decide (n < 0x10000)

end WellFormed

/-- Every operand of the line fits the width R61 and R62 give it. -/
def Asm.wellFormed : Asm → Bool
  | .cls | .ret => true
  | .jp a | .call a | .ldI a | .jpV0 a => WellFormed.addr a
  | .seImm x k | .sneImm x k | .ldImm x k | .addImm x k | .rnd x k => WellFormed.nibble x && WellFormed.byte k
  | .seReg x y | .ldReg x y | .orReg x y | .andReg x y | .xorReg x y | .addReg x y | .subReg x y | .subn x y | .sneReg x y =>
    WellFormed.nibble x && WellFormed.nibble y
  | .shr x y | .shl x y => WellFormed.nibble x && WellFormed.nibble (y.getD 0)
  | .drw x y n => WellFormed.nibble x && WellFormed.nibble y && WellFormed.nibble n
  | .skp x | .sknp x | .ldVxDT x | .ldVxK x | .ldDTVx x | .ldSTVx x | .addI x | .ldF x | .ldB x | .storeRegs x
  | .loadRegs x => WellFormed.nibble x
  | .dataWord w => WellFormed.word w
  | .dataByte b => WellFormed.byte b

end Sys2Proof
end

