-- ==== Sys2Proof/Decode.lean ====
section
/-! DEFINITION. Decode.lean: from the bytes at the program counter to an instruction or a refusal, and back
(spec/30_encoding.md R52 to R60, spec/20_memory.md R38). -/

namespace Sys2Proof

/-- `v[hi:lo]`, the unsigned field of bits hi down to lo (R8). -/
def bits (w : Word) (hi lo : Nat) : Nat := w.toNat / 2 ^ lo % 2 ^ (hi + 1 - lo)

/-- The nibble fields and operand views of a word; they exist for every word, whatever its family (R52, R54). -/
structure Fields where
  op : Nat
  X : Reg
  Y : Reg
  N : Fin 16
  NN : Byte
  NNN : Addr12
  deriving DecidableEq, Repr

/-- The field of bits lo+3 down to lo as an index. -/
def nibbleAt (w : Word) (lo : Nat) : Fin 16 := ⟨bits w (lo + 3) lo % 16, Nat.mod_lt _ (by decide)⟩

/-- The decode unit: a pure, total function of the word (R52, R55). -/
def fields (w : Word) : Fields where
  op := bits w 15 12
  X := nibbleAt w 8
  Y := nibbleAt w 4
  N := nibbleAt w 0
  NN := BitVec.ofNat 8 (bits w 7 0)
  NNN := BitVec.ofNat 12 (bits w 11 0)

/-- Why bytes are no instruction: fewer than two of them, or an illegal word (R58, R60). -/
inductive DecodeError where
  | truncated
  | unknownOpcode (w : Word)
  deriving DecidableEq, Repr

/-- Family 0: the secondary key is all of NNN (R56; D33). -/
def selectFamily0 (f : Fields) : Option Instr :=
  match f.NNN.toNat with
  | 0x0E0 => some .cls
  | 0x0EE => some .ret
  | _ => none

/-- Family 8: the secondary key is N (R56, R57; D9). -/
def selectFamily8 (f : Fields) : Option Instr :=
  match f.N.val with
  | 0x0 => some (.ldReg f.X f.Y)
  | 0x1 => some (.orReg f.X f.Y)
  | 0x2 => some (.andReg f.X f.Y)
  | 0x3 => some (.xorReg f.X f.Y)
  | 0x4 => some (.addReg f.X f.Y)
  | 0x5 => some (.subReg f.X f.Y)
  | 0x6 => some (.shr f.X f.Y)
  | 0x7 => some (.subn f.X f.Y)
  | 0xE => some (.shl f.X f.Y)
  | _ => none

/-- Family E: the secondary key is NN (R56). -/
def selectFamilyE (f : Fields) : Option Instr :=
  match f.NN.toNat with
  | 0x9E => some (.skp f.X)
  | 0xA1 => some (.sknp f.X)
  | _ => none

/-- Family F: the secondary key is NN (R56). -/
def selectFamilyF (f : Fields) : Option Instr :=
  match f.NN.toNat with
  | 0x07 => some (.ldVxDT f.X)
  | 0x0A => some (.ldVxK f.X)
  | 0x15 => some (.ldDTVx f.X)
  | 0x18 => some (.ldSTVx f.X)
  | 0x1E => some (.addI f.X)
  | 0x29 => some (.ldF f.X)
  | 0x33 => some (.ldB f.X)
  | 0x55 => some (.storeRegs f.X)
  | 0x65 => some (.loadRegs f.X)
  | _ => none

/-- Families 5 and 9: the fourth nibble must be 0 (R56; D8, C3). -/
def selectIfZero (f : Fields) (i : Instr) : Option Instr := if f.N.val = 0x0 then some i else none

/-- Dispatch by the leading nibble, then in families 0, 8, E and F by the secondary key (R56, R57). -/
def select (f : Fields) : Option Instr :=
  match f.op with
  | 0x0 => selectFamily0 f
  | 0x1 => some (.jp f.NNN)
  | 0x2 => some (.call f.NNN)
  | 0x3 => some (.seImm f.X f.NN)
  | 0x4 => some (.sneImm f.X f.NN)
  | 0x5 => selectIfZero f (.seReg f.X f.Y)
  | 0x6 => some (.ldImm f.X f.NN)
  | 0x7 => some (.addImm f.X f.NN)
  | 0x8 => selectFamily8 f
  | 0x9 => selectIfZero f (.sneReg f.X f.Y)
  | 0xA => some (.ldI f.NNN)
  | 0xB => some (.jpV0 f.NNN)
  | 0xC => some (.rnd f.X f.NN)
  | 0xD => some (.drw f.X f.Y f.N)
  | 0xE => selectFamilyE f
  | 0xF => selectFamilyF f
  | _ => none

/-- Decode and dispatch of one word: an instruction, or the refusal `unknownOpcode` (R55, R57, R58, R65). -/
def decodeWord (w : Word) : Except DecodeError Instr :=
  match select (fields w) with
  | some i => .ok i
  | none => .error (.unknownOpcode w)

/-- The instruction word of two bytes: the byte at the lower address is bits 15:8 (R38). -/
def wordOf (first second : Byte) : Word := first ++ second

/-- Decode of a list of bytes: the instruction and the bytes after it. Every instruction is exactly two bytes (R60). -/
def decodeBytes : List Byte → Except DecodeError (Instr × List Byte)
  | first :: second :: rest =>
    match decodeWord (wordOf first second) with
    | .ok i => .ok (i, rest)
    | .error e => .error e
  | _ => .error .truncated

/-! The encoder, written from the match values of R57's table and the shapes of R53. -/

/-- A word of shape A: op, NNN. -/
def wordA (op : Nat) (nnn : Addr12) : Word := BitVec.ofNat 16 (op * 0x1000 + nnn.toNat)

/-- A word of shape XK: op, X, NN. -/
def wordXK (op : Nat) (x : Reg) (nn : Byte) : Word := BitVec.ofNat 16 (op * 0x1000 + x.val * 0x100 + nn.toNat)

/-- A word of shape XY or XYN: op, X, Y and a low nibble. -/
def wordXY (op : Nat) (x y : Reg) (n : Nat) : Word := BitVec.ofNat 16 (op * 0x1000 + x.val * 0x100 + y.val * 0x10 + n)

/-- A word of shape XF: op, X and a fixed low byte. -/
def wordXF (op : Nat) (x : Reg) (low : Nat) : Word := BitVec.ofNat 16 (op * 0x1000 + x.val * 0x100 + low)

/-- The word of an instruction (R53, R57). -/
def encode : Instr → Word
  | .cls => 0x00E0
  | .ret => 0x00EE
  | .jp nnn => wordA 0x1 nnn
  | .call nnn => wordA 0x2 nnn
  | .seImm x nn => wordXK 0x3 x nn
  | .sneImm x nn => wordXK 0x4 x nn
  | .seReg x y => wordXY 0x5 x y 0x0
  | .ldImm x nn => wordXK 0x6 x nn
  | .addImm x nn => wordXK 0x7 x nn
  | .ldReg x y => wordXY 0x8 x y 0x0
  | .orReg x y => wordXY 0x8 x y 0x1
  | .andReg x y => wordXY 0x8 x y 0x2
  | .xorReg x y => wordXY 0x8 x y 0x3
  | .addReg x y => wordXY 0x8 x y 0x4
  | .subReg x y => wordXY 0x8 x y 0x5
  | .shr x y => wordXY 0x8 x y 0x6
  | .subn x y => wordXY 0x8 x y 0x7
  | .shl x y => wordXY 0x8 x y 0xE
  | .sneReg x y => wordXY 0x9 x y 0x0
  | .ldI nnn => wordA 0xA nnn
  | .jpV0 nnn => wordA 0xB nnn
  | .rnd x nn => wordXK 0xC x nn
  | .drw x y n => wordXY 0xD x y n.val
  | .skp x => wordXF 0xE x 0x9E
  | .sknp x => wordXF 0xE x 0xA1
  | .ldVxDT x => wordXF 0xF x 0x07
  | .ldVxK x => wordXF 0xF x 0x0A
  | .ldDTVx x => wordXF 0xF x 0x15
  | .ldSTVx x => wordXF 0xF x 0x18
  | .addI x => wordXF 0xF x 0x1E
  | .ldF x => wordXF 0xF x 0x29
  | .ldB x => wordXF 0xF x 0x33
  | .storeRegs x => wordXF 0xF x 0x55
  | .loadRegs x => wordXF 0xF x 0x65

/-- A word as the memory holds it: bits 15:8 at the lower address (R38). -/
def wordBytes (w : Word) : List Byte := [BitVec.ofNat 8 (bits w 15 8), BitVec.ofNat 8 (bits w 7 0)]

/-- The two bytes of an instruction, the first at the lower address (R38, R60). -/
def encodeBytes (i : Instr) : List Byte := wordBytes (encode i)

/-! The opcode table, as spec/opcode_table.json gives it: each row's mnemonic and its fixed fields. -/

/-- A fixed field of a row: bits hi down to lo hold value. -/
structure FixedField where
  hi : Nat
  lo : Nat
  value : Nat
  deriving DecidableEq, Repr

/-- A row of the opcode table (R57). -/
structure Row where
  mnemonic : String
  fixed : List FixedField
  deriving DecidableEq, Repr

/-- The word has the row's value in each of its fixed fields. -/
def Row.selects (r : Row) (w : Word) : Bool := r.fixed.all fun f => bits w f.hi f.lo == f.value

/-- The 34 rows. -/
def opcodeTable : List Row :=
  [⟨"00E0", [⟨15, 0, 0xE0⟩]⟩,
   ⟨"00EE", [⟨15, 0, 0xEE⟩]⟩,
   ⟨"1NNN", [⟨15, 12, 0x1⟩]⟩,
   ⟨"2NNN", [⟨15, 12, 0x2⟩]⟩] ++
  [⟨"3XNN", [⟨15, 12, 0x3⟩]⟩,
   ⟨"4XNN", [⟨15, 12, 0x4⟩]⟩,
   ⟨"5XY0", [⟨3, 0, 0x0⟩, ⟨15, 12, 0x5⟩]⟩,
   ⟨"6XNN", [⟨15, 12, 0x6⟩]⟩,
   ⟨"7XNN", [⟨15, 12, 0x7⟩]⟩] ++
  [⟨"8XY0", [⟨3, 0, 0x0⟩, ⟨15, 12, 0x8⟩]⟩,
   ⟨"8XY1", [⟨3, 0, 0x1⟩, ⟨15, 12, 0x8⟩]⟩,
   ⟨"8XY2", [⟨3, 0, 0x2⟩, ⟨15, 12, 0x8⟩]⟩,
   ⟨"8XY3", [⟨3, 0, 0x3⟩, ⟨15, 12, 0x8⟩]⟩,
   ⟨"8XY4", [⟨3, 0, 0x4⟩, ⟨15, 12, 0x8⟩]⟩,
   ⟨"8XY5", [⟨3, 0, 0x5⟩, ⟨15, 12, 0x8⟩]⟩,
   ⟨"8XY6", [⟨3, 0, 0x6⟩, ⟨15, 12, 0x8⟩]⟩,
   ⟨"8XY7", [⟨3, 0, 0x7⟩, ⟨15, 12, 0x8⟩]⟩,
   ⟨"8XYE", [⟨3, 0, 0xE⟩, ⟨15, 12, 0x8⟩]⟩] ++
  [⟨"9XY0", [⟨3, 0, 0x0⟩, ⟨15, 12, 0x9⟩]⟩,
   ⟨"ANNN", [⟨15, 12, 0xA⟩]⟩,
   ⟨"BNNN", [⟨15, 12, 0xB⟩]⟩,
   ⟨"CXNN", [⟨15, 12, 0xC⟩]⟩,
   ⟨"DXYN", [⟨15, 12, 0xD⟩]⟩,
   ⟨"EX9E", [⟨7, 0, 0x9E⟩, ⟨15, 12, 0xE⟩]⟩,
   ⟨"EXA1", [⟨7, 0, 0xA1⟩, ⟨15, 12, 0xE⟩]⟩] ++
  [⟨"FX07", [⟨7, 0, 0x7⟩, ⟨15, 12, 0xF⟩]⟩,
   ⟨"FX0A", [⟨7, 0, 0xA⟩, ⟨15, 12, 0xF⟩]⟩,
   ⟨"FX15", [⟨7, 0, 0x15⟩, ⟨15, 12, 0xF⟩]⟩,
   ⟨"FX18", [⟨7, 0, 0x18⟩, ⟨15, 12, 0xF⟩]⟩,
   ⟨"FX1E", [⟨7, 0, 0x1E⟩, ⟨15, 12, 0xF⟩]⟩,
   ⟨"FX29", [⟨7, 0, 0x29⟩, ⟨15, 12, 0xF⟩]⟩,
   ⟨"FX33", [⟨7, 0, 0x33⟩, ⟨15, 12, 0xF⟩]⟩,
   ⟨"FX55", [⟨7, 0, 0x55⟩, ⟨15, 12, 0xF⟩]⟩,
   ⟨"FX65", [⟨7, 0, 0x65⟩, ⟨15, 12, 0xF⟩]⟩]

/-- The row an instruction stands for, by the table's mnemonic. -/
def Instr.mnemonic : Instr → String
  | .cls => "00E0"
  | .ret => "00EE"
  | .jp _ => "1NNN"
  | .call _ => "2NNN"
  | .seImm _ _ => "3XNN"
  | .sneImm _ _ => "4XNN"
  | .seReg _ _ => "5XY0"
  | .ldImm _ _ => "6XNN"
  | .addImm _ _ => "7XNN"
  | .ldReg _ _ => "8XY0"
  | .orReg _ _ => "8XY1"
  | .andReg _ _ => "8XY2"
  | .xorReg _ _ => "8XY3"
  | .addReg _ _ => "8XY4"
  | .subReg _ _ => "8XY5"
  | .shr _ _ => "8XY6"
  | .subn _ _ => "8XY7"
  | .shl _ _ => "8XYE"
  | .sneReg _ _ => "9XY0"
  | .ldI _ => "ANNN"
  | .jpV0 _ => "BNNN"
  | .rnd _ _ => "CXNN"
  | .drw _ _ _ => "DXYN"
  | .skp _ => "EX9E"
  | .sknp _ => "EXA1"
  | .ldVxDT _ => "FX07"
  | .ldVxK _ => "FX0A"
  | .ldDTVx _ => "FX15"
  | .ldSTVx _ => "FX18"
  | .addI _ => "FX1E"
  | .ldF _ => "FX29"
  | .ldB _ => "FX33"
  | .storeRegs _ => "FX55"
  | .loadRegs _ => "FX65"

/-- The host's question: the instruction the decoder reads from a word of `nbits` bits numbered as the table numbers them (bit 0
is the least significant bit of the word; R8), laid out as memory holds it. -/
def decodeTableWord (nbits w : Nat) : Option Instr :=
  match decodeBytes (wordBytes (BitVec.ofNat 16 (w % 2 ^ nbits))) with
  | .ok (i, _) => some i
  | .error _ => none

end Sys2Proof
end

