-- ==== Sys2Proof/Config.lean ====
section
/-! DEFINITION. Config.lean: the parameters of spec/00_scope.md R7: the fixed ones, FONT_IMAGE with its default, and the
free values (constants with no body). -/

namespace Sys2Proof.Config

/-- `MEM_SIZE`: addresses 0x000 to 0xFFF (R7, R35). -/
def memSize : Nat := 0x1000

/-- `PROG_BASE`: where Load writes and where `pc` points at reset (R7, R36, R142). -/
def progBase : Nat := 0x200

/-- `FONT_BASE` (R7; the spec's decision D14, log entry 17). -/
def fontBase : Nat := 0x000

/-- `FONT_STRIDE`, bytes per glyph (R7; the spec's decision D14, log entry 17). -/
def fontStride : Nat := 5

/-- `FONT_IMAGE`: the 80 bytes Reset writes at `FONT_BASE`; an open parameter, which the model's reset takes as an
argument (R7, R30, D14; log entry 2). -/
abbrev FontImage := Vector Byte 80

/-- The default of `FONT_IMAGE`: "all fields zeroed" (R30, C4). -/
def defaultFont : FontImage := Vector.replicate 80 0

/-- The conventional hexadecimal font, a suggested value of `FONT_IMAGE` (spec/93_implementation_defined.md K9). -/
def conventionalFont : FontImage :=
  (#v[0xF0, 0x90, 0x90, 0x90, 0xF0,  0x20, 0x60, 0x20, 0x20, 0x70,  0xF0, 0x10, 0xF0, 0x80, 0xF0,
     0xF0, 0x10, 0xF0, 0x10, 0xF0] : Vector Byte 20) ++
  (#v[0x90, 0x90, 0xF0, 0x10, 0x10,  0xF0, 0x80, 0xF0, 0x10, 0xF0,  0xF0, 0x80, 0xF0, 0x90, 0xF0,
     0xF0, 0x10, 0x20, 0x40, 0x40] : Vector Byte 20) ++
  (#v[0xF0, 0x90, 0xF0, 0x90, 0xF0,  0xF0, 0x90, 0xF0, 0x10, 0xF0,  0xF0, 0x90, 0xF0, 0x90, 0x90,
     0xE0, 0x90, 0xE0, 0x90, 0xE0] : Vector Byte 20) ++
  (#v[0xF0, 0x80, 0x80, 0x80, 0xF0,  0xE0, 0x90, 0x90, 0x90, 0xE0,  0xF0, 0x80, 0xF0, 0x80, 0xF0,
     0xF0, 0x80, 0xF0, 0x80, 0x80] : Vector Byte 20)

/-- `RANDOM`: the free value of CXNN, a byte the core does not choose. The n-th draw that the host has not injected is
`randomByte n`; nothing is known of it (R91, R134, D23, K4; log entry 1). -/
opaque randomByte : Nat → Byte

/-- `INSTR_RATE`: the host's choice; no rule reads it and no definition of this model does (R7, R152, K6; log entry 22). -/
opaque instrRate : Nat

/-- `TICK_RATE`: ticks per logical second; no rule depends on it (R7, R130). -/
def tickRate : Nat := 60

end Sys2Proof.Config
end

