-- ==== Sys2Proof/Machine/State.lean ====
section
/-! DEFINITION. State.lean: the architectural state of spec/10_state.md R13, the ways a step can stop, and reset. -/

namespace Sys2Proof.Machine

/-- The four fault kinds a Step can raise (R120). -/
inductive FaultKind where
  /-- The word matches no row of the opcode table. -/
  | unknownOpcode
  /-- 2NNN with the stack at capacity. -/
  | stackOverflow
  /-- 00EE with an empty stack. -/
  | stackUnderflow
  /-- A fetch, DXYN, FX33, FX55 or FX65 outside the 4096 bytes. -/
  | memoryBounds
  deriving DecidableEq, Repr

/-- The record a fault leaves: its kind, the address of the instruction, and the word, absent when the fetch itself faulted
(R121). -/
structure FaultRecord where
  kind : FaultKind
  addr : Word
  word : Option Word
  deriving DecidableEq, Repr

/-- Memory: the bytes that differ from `unlistedByte`, as (address, byte) pairs in canonical form (R35; log entry 10). -/
abbrev Memory := List Host.Cell

/-- What an address the list does not hold reads as: the reset value of memory (R30). -/
def unlistedByte : Byte := 0x00

/-- Every listed address is above `lo`, rising, inside the address space, and its byte is not `unlistedByte`. -/
def Memory.wfFrom : Nat → Memory → Bool
  | _, [] => true
  | lo, (a, b) :: m => decide (lo ≤ a) && decide (a < Config.memSize) && decide (b ≠ unlistedByte) && Memory.wfFrom (a + 1) m

/-- The canonical form: addresses strictly rising and below 4096, no entry equal to what an unlisted address reads as. Equal
memories are equal lists. -/
def Memory.wf (m : Memory) : Bool := Memory.wfFrom 0 m

/-- The memory that holds `bs` from address `a` upward and `unlistedByte` elsewhere, in canonical form. -/
def Memory.image : Nat → List Byte → Memory
  | _, [] => []
  | a, b :: bs => if b = unlistedByte then Memory.image (a + 1) bs else (a, b) :: Memory.image (a + 1) bs

/-- The display: 32 rows of 64 one-bit pixels, `disp[y][x]` (R24). -/
abbrev Display := Vector (Vector Bool 64) 32

/-- The core's state: exactly the tuple of R13, and two fields of the MODEL that hold the random source's input as plain data
(log entry 1). Nothing else is state. -/
structure State where
  /-- 4096 bytes of memory (R25). -/
  mem : Memory
  /-- V0 to VF (R14). -/
  x : Vector Byte 16
  /-- The address register (R19). -/
  I : Word
  /-- The program counter (R16). -/
  pc : Word
  /-- The return-address stack (R20). -/
  stack : Vector Word 16
  /-- The stack depth, 0 to 16; `stack[sp-1]` is the top (R20; log entry 11). -/
  sp : Fin 17
  /-- The delay timer (R22). -/
  DT : Byte
  /-- The sound timer (R22). -/
  ST : Byte
  /-- The keypad, true for pressed (R23). -/
  key : Vector Bool 16
  /-- The display (R24). -/
  disp : Display
  /-- The register FX0A waits to fill, or none (R26). -/
  wait : Option Reg
  /-- The recorded fault, or none; cleared by Reset only (R27). -/
  fault : Option FaultRecord
  /-- MODEL's own (log entry 1): the draws the host's generator has been told to supply next, oldest first (R134). -/
  injected : List Byte
  /-- MODEL's own (log entry 1): how many draws have been taken; the index of the next free draw. -/
  drawCount : Nat
  deriving DecidableEq, Repr

/-- Why a Step stops the machine. -/
inductive Fault where
  /-- Raised by `step` alone, never by a meaning: the core holds a recorded fault, so the Step answers Faulted(record) and
  changes nothing (R63, R124). Safe: a faulted run has no continuation (D6; log entry 3). -/
  | recorded (r : FaultRecord)
  deriving DecidableEq, Repr

/-- Why the model gives an instruction no meaning. -/
inductive Refusal where
  /-- Raised by an arm of `exec` whose instruction has no meaning yet; no arm of this model raises it. Safe: no claim can be
  proved of such a step. -/
  | notModelled (mnemonic : String)
  deriving DecidableEq, Repr

/-- The state right after Reset with a given `FONT_IMAGE` (R30, R141; log entry 2). -/
def State.resetWith (font : Config.FontImage) : State where
  mem := Memory.image Config.fontBase font.toList
  x := Vector.replicate 16 0
  I := 0
  pc := BitVec.ofNat 16 Config.progBase
  stack := Vector.replicate 16 0
  sp := 0
  DT := 0
  ST := 0
  key := Vector.replicate 16 false
  disp := Vector.replicate 32 (Vector.replicate 64 false)
  wait := none
  fault := none
  injected := []
  drawCount := 0

/-- The state right after Reset with the default `FONT_IMAGE`, all zero (R30, R141). -/
def State.reset : State := State.resetWith Config.defaultFont

end Sys2Proof.Machine
end

