-- ==== Sys2Proof/Machine/Ops.lean ====
section
/-! DEFINITION. Ops.lean: the named operations over memory, registers, the stack and the fault record that the meanings share
(spec/10_state.md, spec/20_memory.md, spec/60_exceptions.md R119 to R124). -/

namespace Sys2Proof.Machine

/-- What every meaning and the step answer. -/
abbrev Result := Host.Outcome State Fault Refusal

/-! Field updates. -/

def State.setMem (s : State) (m : Memory) : State := { s with mem := m }

/-- `I <- v` (R19). -/
def State.setI (s : State) (v : Word) : State := { s with I := v }

/-- `pc <- target` (R10, R17). -/
def State.setPc (s : State) (v : Word) : State := { s with pc := v }

/-- `DT <- v` (R22). -/
def State.setDT (s : State) (v : Byte) : State := { s with DT := v }

/-- `ST <- v` (R22). -/
def State.setST (s : State) (v : Byte) : State := { s with ST := v }

def State.setDisp (s : State) (d : Display) : State := { s with disp := d }

/-- `wait <- v` (R26). -/
def State.setWait (s : State) (v : Option Reg) : State := { s with wait := v }

/-- `fault <- v` (R27). -/
def State.setFault (s : State) (v : Option FaultRecord) : State := { s with fault := v }

/-- `key[k] <- pressed` (R23, R136). -/
def State.setKey (s : State) (k : Fin 16) (pressed : Bool) : State := { s with key := s.key.set k.val pressed }

/-- `x[r]`: every register is readable by every instruction that names it (R14). -/
def State.reg (s : State) (r : Reg) : Byte := s.x[r.val]

/-- `x[r] <- v`: no register is hardwired and no two alias (R14). -/
def State.setReg (s : State) (r : Reg) (v : Byte) : State := { s with x := s.x.set r.val v }

/-! Memory (spec/20_memory.md). -/

/-- The byte at an address. Total; every access of the core applies `checkRange` first (R39, R41; log entry 12). -/
def Memory.read : Memory → Nat → Byte
  | [], _ => unlistedByte
  | (k, v) :: m, a => if a = k then v else Memory.read m a

/-- One byte written; keeps the canonical form (R41). -/
def Memory.write : Memory → Nat → Byte → Memory
  | [], a, b => if b = unlistedByte then [] else [(a, b)]
  | (k, v) :: m, a, b =>
    if a < k then (if b = unlistedByte then (k, v) :: m else (a, b) :: (k, v) :: m)
    else if a = k then (if b = unlistedByte then m else (a, b) :: m)
    else (k, v) :: Memory.write m a b

/-- Bytes written from address `a` upward, in the order of the pseudocode (R43). -/
def Memory.writeBytes : Memory → Nat → List Byte → Memory
  | m, _, [] => m
  | m, a, b :: bs => Memory.writeBytes (m.write a b) (a + 1) bs

/-- `CheckRange(a, n)` on unbounded integers: no address wraps (R39). -/
def checkRange (a n : Nat) : Bool := decide (n = 0) || decide (a + n - 1 ≤ 0xFFF)

/-- The `n` bytes at `a`, the lowest address first (R10 `MemRead`). -/
def State.readBytes (s : State) (a n : Nat) : List Byte := (List.range n).map fun k => s.mem.read (a + k)

/-- `MemWrite`: the bytes written from `a` upward (R10). -/
def State.writeBytes (s : State) (a : Nat) (bs : List Byte) : State := s.setMem (s.mem.writeBytes a bs)

/-! Program counter and stack. -/

/-- `Skip` (R67). -/
def State.skip (s : State) : State := s.setPc (s.pc + 2)

/-- `Skip` when the condition holds, `Next` otherwise (R67). -/
def State.skipIf (s : State) (c : Bool) : State := if c then s.skip else s

/-- `Push(v)`; none on overflow (R21). -/
def State.push (s : State) (v : Word) : Option State :=
  if h : s.sp.val < 16 then some { s with stack := s.stack.set s.sp.val v, sp := ⟨s.sp.val + 1, by omega⟩ } else none

/-- `Pop()`; none on underflow. The value stays in its entry (R21). -/
def State.pop (s : State) : Option (Word × State) :=
  if h : 0 < s.sp.val then
    some (s.stack[s.sp.val - 1]'(by omega), { s with sp := ⟨s.sp.val - 1, by omega⟩ })
  else none

/-! Fault entry. The core has no handler, no vector and no return from a fault: Reset alone clears the record (R119, R124). -/

/-- Fault entry: the record is set and nothing else; `pc` is left as the fetch set it (R121, R122). -/
def raiseFault (kind : FaultKind) (addr : Word) (word : Option Word) (s : State) : State :=
  s.setFault (some ⟨kind, addr, word⟩)

/-- Fault entry from the execute phase of instruction `i`: its address is `pc - 2` and its word is the one fetched, which is
`encode i` because decoding keeps every field (R65, R121; log entry 8). -/
def raiseIn (kind : FaultKind) (i : Instr) (s : State) : Result :=
  .next (raiseFault kind (s.pc - 2) (some (encode i)) s)

/-! The random source (R134; log entry 1). -/

/-- The byte the next CXNN draws: the next injected byte, else a free value. -/
def State.drawByte (s : State) : Byte := s.injected.headD (Config.randomByte s.drawCount)

/-- The draw is taken: each CXNN takes exactly one (R91). -/
def State.takeDraw (s : State) : State := { s with injected := s.injected.tail, drawCount := s.drawCount + 1 }

/-! The fetch. -/

/-- The two bytes at `pc` as a word, or none out of range (R38, R64). -/
def State.fetchWord (s : State) : Option Word :=
  if checkRange s.pc.toNat 2 then some (wordOf (s.mem.read s.pc.toNat) (s.mem.read (s.pc.toNat + 1))) else none

/-- A word stored where the next Step fetches, with the core neither faulted nor waiting; a `pc` from which no word can be
fetched is set to `PROG_BASE` first (log entry 6). -/
def placeWord (s : State) (nbits w : Nat) : State :=
  let pc := if checkRange s.pc.toNat 2 then s.pc else BitVec.ofNat 16 Config.progBase
  (((s.setPc pc).setWait none).setFault none).writeBytes pc.toNat (wordBytes (BitVec.ofNat 16 (w % 2 ^ nbits)))

end Sys2Proof.Machine
end

