-- ==== Sys2Proof/Machine/Operands.lean ====
section
/-! DEFINITION. Operands.lean: the operand forms: immediates, nibble views, the register-indirect form through I, the glyph
address, the BCD digits, register blocks and the sprite origin. -/

namespace Sys2Proof.Machine

/-- `zext_16(NNN)`: every immediate is unsigned and zero-extended (R54). -/
def addrOf (nnn : Addr12) : Word := nnn.setWidth 16

/-- `zext_16(x)` of a register value (R76, R95). -/
def zext16 (v : Byte) : Word := v.setWidth 16

/-- `v[3:0]`: the key and the glyph a register value selects (R96, R111, R118; D14, D22). -/
def lowNibble (v : Byte) : Fin 16 := ⟨v.toNat % 16, Nat.mod_lt _ (by decide)⟩

/-- Whether the key numbered by a register value is pressed (R111, R112). -/
def State.keyOf (s : State) (v : Byte) : Bool := s.key[(lowNibble v).val]

/-- `FONT_BASE + FONT_STRIDE * v[3:0]` (R96). -/
def glyphAddr (v : Byte) : Word := BitVec.ofNat 16 (Config.fontBase + Config.fontStride * (lowNibble v).val)

/-- The effective address of every data access, `I + k`, starts at `I` (R101). -/
def State.base (s : State) : Nat := s.I.toNat

/-- Hundreds, tens and ones (R97, D15). -/
def bcdDigits (v : Byte) : List Byte :=
  [BitVec.ofNat 8 (v.toNat / 100), BitVec.ofNat 8 (v.toNat / 10 % 10), BitVec.ofNat 8 (v.toNat % 10)]

/-- How many registers FX55 and FX65 move: V0 to Vx (R99, R100). -/
def blockSize (x : Reg) : Nat := x.val + 1

/-- `x[0..X]`, V0 first (R99). -/
def State.regBlock (s : State) (x : Reg) : List Byte := s.x.toList.take (blockSize x)

/-- `x[k] <- b` for the bytes in order, from register `k` up (R100). -/
def State.setRegsFrom : State → Nat → List Byte → State
  | s, _, [] => s
  | s, k, b :: bs => if h : k < 16 then State.setRegsFrom (s.setReg ⟨k, h⟩ b) (k + 1) bs else s

/-- `x0 = x[X] mod 64` (R103). -/
def originX (v : Byte) : Nat := v.toNat % 64

/-- `y0 = x[Y] mod 32` (R103). -/
def originY (v : Byte) : Nat := v.toNat % 32

end Sys2Proof.Machine
end

