-- ==== Sys2Proof/Machine/Flags.lean ====
section
/-! DEFINITION. Flags.lean: every flag computation: the values VF takes (spec/41_alu.md R93, spec/43_display.md R106). -/

namespace Sys2Proof.Machine

/-- 0x01 or 0x00. -/
def flagByte (b : Bool) : Byte := if b then 0x01 else 0x00

/-- The carry out of bit 7 of `a + b` (R86). -/
def carryOut (a b : Byte) : Bool := decide (a.toNat + b.toNat ≥ 0x100)

/-- NOT borrow of `a - b`: `a >= b` (R87, R89; D10). -/
def noBorrow (a b : Byte) : Bool := decide (a.toNat ≥ b.toNat)

/-- `a[0]`, the bit 8XY6 shifts out (R88). -/
def bitOutRight (a : Byte) : Bool := a.getLsbD 0

/-- `a[7]`, the bit 8XYE shifts out (R90). -/
def bitOutLeft (a : Byte) : Bool := a.getLsbD 7

/-- `x[X] <- result` first and `x[0xF] <- flag` last, so that with X = 0xF the flag stays (R81(b), D13). -/
def State.setResultAndFlag (s : State) (x : Reg) (result : Byte) (flag : Bool) : State :=
  (s.setReg x result).setReg VF (flagByte flag)

end Sys2Proof.Machine
end

