-- ==== Sys2Proof/Machine/Alu.lean ====
section
/-! DEFINITION. Alu.lean: spec/41_alu.md. Operands are read from the state before any write (R81(a), R81(c)). -/

namespace Sys2Proof.Machine

/-- 6XNN (R79). -/
def execLdImm (x : Reg) (nn : Byte) (s : State) : Result := .next (s.setReg x nn)

/-- 7XNN: the sum modulo 2^8, no flag (R80). -/
def execAddImm (x : Reg) (nn : Byte) (s : State) : Result := .next (s.setReg x (s.reg x + nn))

/-- 8XY0 (R82). -/
def execLdReg (x y : Reg) (s : State) : Result := .next (s.setReg x (s.reg y))

/-- 8XY1 (R83, D12). -/
def execOrReg (x y : Reg) (s : State) : Result := .next (s.setReg x (s.reg x ||| s.reg y))

/-- 8XY2 (R84, D12). -/
def execAndReg (x y : Reg) (s : State) : Result := .next (s.setReg x (s.reg x &&& s.reg y))

/-- 8XY3 (R85, D12). -/
def execXorReg (x y : Reg) (s : State) : Result := .next (s.setReg x (s.reg x ^^^ s.reg y))

/-- 8XY4 (R86). -/
def execAddReg (x y : Reg) (s : State) : Result :=
  .next (s.setResultAndFlag x (s.reg x + s.reg y) (carryOut (s.reg x) (s.reg y)))

/-- 8XY5 (R87). -/
def execSubReg (x y : Reg) (s : State) : Result :=
  .next (s.setResultAndFlag x (s.reg x - s.reg y) (noBorrow (s.reg x) (s.reg y)))

/-- 8XY6: Vx is shifted, Y is ignored (R88, R59, D11). -/
def execShr (x _y : Reg) (s : State) : Result := .next (s.setResultAndFlag x (s.reg x >>> 1) (bitOutRight (s.reg x)))

/-- 8XY7 (R89). -/
def execSubn (x y : Reg) (s : State) : Result :=
  .next (s.setResultAndFlag x (s.reg y - s.reg x) (noBorrow (s.reg y) (s.reg x)))

/-- 8XYE: Vx is shifted, Y is ignored (R90, R59, D11). -/
def execShl (x _y : Reg) (s : State) : Result := .next (s.setResultAndFlag x (s.reg x <<< 1) (bitOutLeft (s.reg x)))

/-- CXNN: one fresh draw (R91; log entry 1). -/
def execRnd (x : Reg) (nn : Byte) (s : State) : Result := .next (s.takeDraw.setReg x (s.drawByte &&& nn))

end Sys2Proof.Machine
end

