-- ==== Sys2Proof/Machine/ControlFlow.lean ====
section
/-! DEFINITION. ControlFlow.lean: spec/40_control_flow.md. On entry `pc` is the instruction's address + 2 (R16, R64). -/

namespace Sys2Proof.Machine

/-- 00EE (R68). -/
def execRet (s : State) : Result :=
  match s.pop with
  | some (target, s') => .next (s'.setPc target)
  | none => raiseIn .stackUnderflow .ret s

/-- 1NNN (R69). -/
def execJp (nnn : Addr12) (s : State) : Result := .next (s.setPc (addrOf nnn))

/-- 2NNN: the pushed value is the current `pc`, already past this instruction (R70). -/
def execCall (nnn : Addr12) (s : State) : Result :=
  match s.push s.pc with
  | some s' => .next (s'.setPc (addrOf nnn))
  | none => raiseIn .stackOverflow (.call nnn) s

/-- 3XNN (R72). -/
def execSeImm (x : Reg) (nn : Byte) (s : State) : Result := .next (s.skipIf (decide (s.reg x = nn)))

/-- 4XNN (R73). -/
def execSneImm (x : Reg) (nn : Byte) (s : State) : Result := .next (s.skipIf (decide (s.reg x ≠ nn)))

/-- 5XY0 (R74). -/
def execSeReg (x y : Reg) (s : State) : Result := .next (s.skipIf (decide (s.reg x = s.reg y)))

/-- 9XY0 (R75). -/
def execSneReg (x y : Reg) (s : State) : Result := .next (s.skipIf (decide (s.reg x ≠ s.reg y)))

/-- BNNN: the exact sum, at most 0x10FE (R76, D19). -/
def execJpV0 (nnn : Addr12) (s : State) : Result := .next (s.setPc (addrOf nnn + zext16 (s.reg V0)))

end Sys2Proof.Machine
end

