-- ==== Sys2Proof/Machine/Display.lean ====
section
/-! DEFINITION. Display.lean: 00E0, and the sprite compositor of DXYN (spec/43_display.md R102 to R108). -/

namespace Sys2Proof.Machine

/-- The row a drawing coordinate falls on: rows past y = 31 continue at y = 0 (R105). -/
def wrapY (y : Nat) : Fin 32 := ⟨y % 32, Nat.mod_lt _ (by decide)⟩

/-- The column a drawing coordinate falls on: columns past x = 63 continue at x = 0 (R105). -/
def wrapX (x : Nat) : Fin 64 := ⟨x % 64, Nat.mod_lt _ (by decide)⟩

/-- `disp[y][x]` (R24). -/
def pixel (d : Display) (y : Fin 32) (x : Fin 64) : Bool := d[y.val][x.val]

/-- `disp[y][x] <- b`. -/
def setPixel (d : Display) (y : Fin 32) (x : Fin 64) (b : Bool) : Display := d.set y.val (d[y.val].set x.val b)

/-- A set source bit on one cell: the cell is XORed with 1, and the collision latch is set if it was 1 (R105, R106). -/
def flipPixel (acc : Display × Bool) (y : Fin 32) (x : Fin 64) : Display × Bool :=
  (setPixel acc.1 y x (!pixel acc.1 y x), acc.2 || pixel acc.1 y x)

/-- One sprite byte: column c takes bit 7 - c, the most significant bit first (R105). -/
def drawByte (b : Byte) (y : Fin 32) (x0 : Nat) (acc : Display × Bool) : Display × Bool :=
  (List.range 8).foldl (fun acc c => if b.getLsbD (7 - c) then flipPixel acc y (wrapX (x0 + c)) else acc) acc

/-- The sprite's rows from row coordinate `y` down (R105, R108). -/
def drawRows : List Byte → Nat → Nat → Display × Bool → Display × Bool
  | [], _, _, acc => acc
  | b :: bs, y, x0, acc => drawRows bs (y + 1) x0 (drawByte b (wrapY y) x0 acc)

/-- The blank display. -/
def blankDisplay : Display := Vector.replicate 32 (Vector.replicate 64 false)

/-- 00E0 (R102). -/
def execCls (s : State) : Result := .next (s.setDisp blankDisplay)

/-- DXYN: the coordinates are read before VF is cleared, the range is checked before anything is written, VF takes the latch
last (R103, R104, R106, R107, R108). -/
def execDrw (x y : Reg) (n : Fin 16) (s : State) : Result :=
  if checkRange s.base n.val then
    let drawn := drawRows (s.readBytes s.base n.val) (originY (s.reg y)) (originX (s.reg x)) (s.disp, false)
    .next ((((s.setReg VF 0x00).setDisp drawn.1)).setReg VF (flagByte drawn.2))
  else raiseIn .memoryBounds (.drw x y n) s

end Sys2Proof.Machine
end

