-- ==== Sys2Proof/Machine/IndexMemory.lean ====
section
/-! DEFINITION. IndexMemory.lean: spec/42_index_memory.md. Every access is at `I + k` and checks its whole range before any
effect (R101, R39, D18); `I` is unchanged by the three memory instructions (R50, D16). -/

namespace Sys2Proof.Machine

/-- ANNN (R94). -/
def execLdI (nnn : Addr12) (s : State) : Result := .next (s.setI (addrOf nnn))

/-- FX1E: modulo 2^16, VF not written (R95, D17). -/
def execAddI (x : Reg) (s : State) : Result := .next (s.setI (s.I + zext16 (s.reg x)))

/-- FX29 (R96). -/
def execLdF (x : Reg) (s : State) : Result := .next (s.setI (glyphAddr (s.reg x)))

/-- FX33 (R97). -/
def execLdB (x : Reg) (s : State) : Result :=
  if checkRange s.base 3 then .next (s.writeBytes s.base (bcdDigits (s.reg x))) else raiseIn .memoryBounds (.ldB x) s

/-- FX55 (R99). -/
def execStoreRegs (x : Reg) (s : State) : Result :=
  if checkRange s.base (blockSize x) then .next (s.writeBytes s.base (s.regBlock x))
  else raiseIn .memoryBounds (.storeRegs x) s

/-- FX65 (R100). -/
def execLoadRegs (x : Reg) (s : State) : Result :=
  if checkRange s.base (blockSize x) then .next (s.setRegsFrom 0 (s.readBytes s.base (blockSize x)))
  else raiseIn .memoryBounds (.loadRegs x) s

end Sys2Proof.Machine
end

