-- ==== Sys2Proof/Machine/KeysTimers.lean ====
section
/-! DEFINITION. KeysTimers.lean: spec/44_keys_timers.md. -/

namespace Sys2Proof.Machine

/-- EX9E (R111). -/
def execSkp (x : Reg) (s : State) : Result := .next (s.skipIf (s.keyOf (s.reg x)))

/-- EXA1 (R112). -/
def execSknp (x : Reg) (s : State) : Result := .next (s.skipIf (!s.keyOf (s.reg x)))

/-- FX07 (R113). -/
def execLdVxDT (x : Reg) (s : State) : Result := .next (s.setReg x s.DT)

/-- FX0A, entering the wait; `pc` is already past it, and a key already held does not end it (R114, D21). -/
def execLdVxK (x : Reg) (s : State) : Result := .next (s.setWait (some x))

/-- FX15 (R116). -/
def execLdDTVx (x : Reg) (s : State) : Result := .next (s.setDT (s.reg x))

/-- FX18 (R117). -/
def execLdSTVx (x : Reg) (s : State) : Result := .next (s.setST (s.reg x))

end Sys2Proof.Machine
end

