-- ==== Sys2Proof/Machine/Cycle.lean ====
section
/-! DEFINITION. Cycle.lean: the instruction cycle of spec/30_encoding.md R63 to R66. -/

namespace Sys2Proof.Machine

/-- DecodeDispatchExecute of a fetched word, `pc` already advanced (R65). -/
def executeWord (w : Word) (s : State) : Result :=
  match decodeWord w with
  | .ok i => exec i s
  | .error _ => .next (raiseFault .unknownOpcode (s.pc - 2) (some w) s)

/-- Fetch, then decode, dispatch and execute. A fetch out of range leaves `pc` and raises MemoryBounds with no word (R64). -/
def runInstruction (s : State) : Result :=
  match s.fetchWord with
  | some w => executeWord w (s.setPc (s.pc + 2))
  | none => .next (raiseFault .memoryBounds s.pc none s)

/-- The Step transaction with its gating: a recorded fault is answered again, then the wait's Hold, which changes nothing, then
one instruction (R63, R123; log entries 3 and 4). -/
def stepCore (s : State) : Result :=
  match s.fault, s.wait with
  | some r, _ => .fault (.recorded r)
  | none, some _ => .next s
  | none, none => runInstruction s

end Sys2Proof.Machine
end

