-- ==== Sys2Proof/Machine/Step.lean ====
section
/-! DEFINITION. Step.lean: one Step of the core (spec/30_encoding.md R63), and where its next instruction is fetched. -/

namespace Sys2Proof.Machine

/-- One Step transaction (R63; log entries 3 to 5). -/
def step (s : State) : Host.Outcome State Fault Refusal := stepCore s

/-- `s` with the word `w` where `step` fetches its next instruction (log entry 6). -/
def State.withFetchWord (s : State) (nbits w : Nat) : State := placeWord s nbits w

end Sys2Proof.Machine
end

