-- ==== Sys2Proof/Machine/Assembler.lean ====
section
/-! DEFINITION. Assembler.lean: the assembler notation of spec/30_encoding.md R61 and R62, as terms: a line becomes an instruction
and its bytes, an instruction becomes a line, a line becomes text. -/

namespace Sys2Proof.Machine

/-- `V0`..`VF`, and `nibble` (R61). -/
def asmReg (n : Nat) : Option Reg := if h : n < 16 then some ⟨n, h⟩ else none

/-- `byte` (R61). -/
def asmByte (n : Nat) : Option Byte := if n < 0x100 then some (BitVec.ofNat 8 n) else none

/-- `addr` (R61). -/
def asmAddr (n : Nat) : Option Addr12 := if n < 0x1000 then some (BitVec.ofNat 12 n) else none

/-- A line of one register. -/
def asmX (f : Reg → Instr) (x : Nat) : Option Instr := (asmReg x).map f

/-- A line of one address. -/
def asmA (f : Addr12 → Instr) (a : Nat) : Option Instr := (asmAddr a).map f

/-- A line of two registers. -/
def asmXY (f : Reg → Reg → Instr) (x y : Nat) : Option Instr := (asmReg x).bind fun x => (asmReg y).map (f x)

/-- A line of a register and a byte. -/
def asmXK (f : Reg → Byte → Instr) (x k : Nat) : Option Instr := (asmReg x).bind fun x => (asmByte k).map (f x)

/-- The instruction a line stands for; none for a data line, or where an operand does not fit its width. The optional `Vy` of
`SHR` and `SHL` sets the ignored Y and defaults to V0 (R61, R62). -/
def instrOfAsm : Asm → Option Instr
  | .cls => some .cls
  | .ret => some .ret
  | .jp a => asmA .jp a
  | .call a => asmA .call a
  | .seImm x k => asmXK .seImm x k
  | .sneImm x k => asmXK .sneImm x k
  | .seReg x y => asmXY .seReg x y
  | .ldImm x k => asmXK .ldImm x k
  | .addImm x k => asmXK .addImm x k
  | .ldReg x y => asmXY .ldReg x y
  | .orReg x y => asmXY .orReg x y
  | .andReg x y => asmXY .andReg x y
  | .xorReg x y => asmXY .xorReg x y
  | .addReg x y => asmXY .addReg x y
  | .subReg x y => asmXY .subReg x y
  | .shr x y => asmXY .shr x (y.getD 0)
  | .subn x y => asmXY .subn x y
  | .shl x y => asmXY .shl x (y.getD 0)
  | .sneReg x y => asmXY .sneReg x y
  | .ldI a => asmA .ldI a
  | .jpV0 a => asmA .jpV0 a
  | .rnd x k => asmXK .rnd x k
  | .drw x y n => (asmReg n).bind fun n => asmXY (fun x y => .drw x y n) x y
  | .skp x => asmX .skp x
  | .sknp x => asmX .sknp x
  | .ldVxDT x => asmX .ldVxDT x
  | .ldVxK x => asmX .ldVxK x
  | .ldDTVx x => asmX .ldDTVx x
  | .ldSTVx x => asmX .ldSTVx x
  | .addI x => asmX .addI x
  | .ldF x => asmX .ldF x
  | .ldB x => asmX .ldB x
  | .storeRegs x => asmX .storeRegs x
  | .loadRegs x => asmX .loadRegs x
  | .dataWord _ => none
  | .dataByte _ => none

/-- The bytes of a data line, words with bits 15:8 first (R38, R62). -/
def dataOfAsm : Asm → Option (List Byte)
  | .dataWord w => some (wordBytes (BitVec.ofNat 16 w))
  | .dataByte b => some [BitVec.ofNat 8 b]
  | _ => none

/-- The bytes a line puts into the program; none for an ill-formed line. -/
def bytesOfAsm (l : Asm) : Option (List Byte) :=
  if l.wellFormed then (dataOfAsm l).or ((instrOfAsm l).map encodeBytes) else none

/-- The flat image of a program's lines (R51, R62); none if a line is ill-formed. -/
def assemble : List Asm → Option (List Byte)
  | [] => some []
  | l :: ls => (bytesOfAsm l).bind fun b => (assemble ls).map (b ++ ·)

/-- The line of an instruction. -/
def asmOfInstr : Instr → Asm
  | .cls => .cls
  | .ret => .ret
  | .jp a => .jp a.toNat
  | .call a => .call a.toNat
  | .seImm x k => .seImm x.val k.toNat
  | .sneImm x k => .sneImm x.val k.toNat
  | .seReg x y => .seReg x.val y.val
  | .ldImm x k => .ldImm x.val k.toNat
  | .addImm x k => .addImm x.val k.toNat
  | .ldReg x y => .ldReg x.val y.val
  | .orReg x y => .orReg x.val y.val
  | .andReg x y => .andReg x.val y.val
  | .xorReg x y => .xorReg x.val y.val
  | .addReg x y => .addReg x.val y.val
  | .subReg x y => .subReg x.val y.val
  | .shr x y => .shr x.val (some y.val)
  | .subn x y => .subn x.val y.val
  | .shl x y => .shl x.val (some y.val)
  | .sneReg x y => .sneReg x.val y.val
  | .ldI a => .ldI a.toNat
  | .jpV0 a => .jpV0 a.toNat
  | .rnd x k => .rnd x.val k.toNat
  | .drw x y n => .drw x.val y.val n.val
  | .skp x => .skp x.val
  | .sknp x => .sknp x.val
  | .ldVxDT x => .ldVxDT x.val
  | .ldVxK x => .ldVxK x.val
  | .ldDTVx x => .ldDTVx x.val
  | .ldSTVx x => .ldSTVx x.val
  | .addI x => .addI x.val
  | .ldF x => .ldF x.val
  | .ldB x => .ldB x.val
  | .storeRegs x => .storeRegs x.val
  | .loadRegs x => .loadRegs x.val

/-- A hexadecimal digit. -/
def hexDigit (n : Nat) : String := String.singleton (Nat.digitChar (n % 16))

/-- A number in hexadecimal with `n` digits, after `0x`. -/
def hexNumber (n v : Nat) : String :=
  "0x" ++ (List.range n).foldl (fun acc k => acc ++ hexDigit (v / 16 ^ (n - 1 - k))) ""

/-- A register's name. -/
def regName (x : Nat) : String := "V" ++ hexDigit x

/-- The optional operand of `SHR` and `SHL` (R61). -/
def optReg : Option Nat → String
  | some y => ", " ++ regName y
  | none => ""

/-- The text of a line (R61). -/
def textOfAsm : Asm → String
  | .cls => "CLS"
  | .ret => "RET"
  | .jp a => "JP " ++ hexNumber 3 a
  | .call a => "CALL " ++ hexNumber 3 a
  | .seImm x k => "SE " ++ regName x ++ ", " ++ hexNumber 2 k
  | .sneImm x k => "SNE " ++ regName x ++ ", " ++ hexNumber 2 k
  | .seReg x y => "SE " ++ regName x ++ ", " ++ regName y
  | .ldImm x k => "LD " ++ regName x ++ ", " ++ hexNumber 2 k
  | .addImm x k => "ADD " ++ regName x ++ ", " ++ hexNumber 2 k
  | .ldReg x y => "LD " ++ regName x ++ ", " ++ regName y
  | .orReg x y => "OR " ++ regName x ++ ", " ++ regName y
  | .andReg x y => "AND " ++ regName x ++ ", " ++ regName y
  | .xorReg x y => "XOR " ++ regName x ++ ", " ++ regName y
  | .addReg x y => "ADD " ++ regName x ++ ", " ++ regName y
  | .subReg x y => "SUB " ++ regName x ++ ", " ++ regName y
  | .shr x y => "SHR " ++ regName x ++ optReg y
  | .subn x y => "SUBN " ++ regName x ++ ", " ++ regName y
  | .shl x y => "SHL " ++ regName x ++ optReg y
  | .sneReg x y => "SNE " ++ regName x ++ ", " ++ regName y
  | .ldI a => "LD I, " ++ hexNumber 3 a
  | .jpV0 a => "JP V0, " ++ hexNumber 3 a
  | .rnd x k => "RND " ++ regName x ++ ", " ++ hexNumber 2 k
  | .drw x y n => "DRW " ++ regName x ++ ", " ++ regName y ++ ", " ++ hexNumber 1 n
  | .skp x => "SKP " ++ regName x
  | .sknp x => "SKNP " ++ regName x
  | .ldVxDT x => "LD " ++ regName x ++ ", DT"
  | .ldVxK x => "LD " ++ regName x ++ ", K"
  | .ldDTVx x => "LD DT, " ++ regName x
  | .ldSTVx x => "LD ST, " ++ regName x
  | .addI x => "ADD I, " ++ regName x
  | .ldF x => "LD F, " ++ regName x
  | .ldB x => "LD B, " ++ regName x
  | .storeRegs x => "LD [I], " ++ regName x
  | .loadRegs x => "LD " ++ regName x ++ ", [I]"
  | .dataWord w => hexNumber 4 w
  | .dataByte b => hexNumber 2 b

end Sys2Proof.Machine
end

