-- ==== Sys2Proof/Machine/Transactions.lean ====
section
/-! DEFINITION. Transactions.lean: the host interface (spec/60_exceptions.md R131, R136, R137; spec/44_keys_timers.md R115;
spec/70_reset_and_hazards.md R141, R145). Each transaction is atomic (R42); a schedule is any list of them (R126, D2). -/

namespace Sys2Proof.Machine

/-- What the program loader is given: bytes, or an input that cannot be read (R145). -/
inductive Image where
  | bytes (bs : List Byte)
  | unavailable
  deriving DecidableEq, Repr

/-- The transactions of R136; key codes are 0 to 15 by their type (R118, D34). -/
inductive Transaction where
  | reset
  | load (image : Image)
  | step
  | tick
  | setKey (k : Fin 16) (pressed : Bool)
  | keyPress (k : Fin 16)
  | readDisplay
  | readStatus
  deriving DecidableEq, Repr

/-- What a transaction answers (R66, R136). -/
inductive Reply where
  /-- No result. -/
  | unit
  /-- Load and Step: `Ok`. -/
  | ok
  /-- Load: `ImageTooLarge`, the spec's code 5 (R120). -/
  | imageTooLarge
  /-- Load: `SourceUnavailable`, the spec's code 6 (R120). -/
  | sourceUnavailable
  /-- Step while the core waits for a key (R63). -/
  | hold
  /-- Step: `Faulted(record)` (R63, R122). -/
  | faulted (r : FaultRecord)
  /-- ReadDisplay. -/
  | display (d : Display)
  /-- ReadStatus: `ST`, `wait ≠ none`, `fault` (R135, R136). -/
  | status (ST : Byte) (waiting : Bool) (fault : Option FaultRecord)
  /-- No Step of this model answers it: it stands for the third outcome of the host's interface. -/
  | refused (r : Refusal)
  deriving DecidableEq, Repr

/-- The spec's cause codes 1 to 4 (R120, D3). -/
def FaultKind.code : FaultKind → Nat
  | .unknownOpcode => 1
  | .stackOverflow => 2
  | .stackUnderflow => 3
  | .memoryBounds => 4

/-- The cause code a reply carries, the loader's 5 and 6 among them (R120, D3). -/
def Reply.code : Reply → Option Nat
  | .faulted r => some r.kind.code
  | .imageTooLarge => some 5
  | .sourceUnavailable => some 6
  | _ => none

/-- The largest image: the bytes from 0x200 to 0xFFF (R145, R146). -/
def maxImage : Nat := Config.memSize - Config.progBase

/-- Reset: every element of R13 at its reset value; the random source is no state and goes on (R141, R13; log entry 7). -/
def State.hostReset (font : Config.FontImage) (s : State) : State :=
  { State.resetWith font with injected := s.injected, drawCount := s.drawCount }

/-- Load (R145). -/
def State.load (s : State) : Image → Reply × State
  | .unavailable => (.sourceUnavailable, s)
  | .bytes bs => if bs.length > maxImage then (.imageTooLarge, s) else (.ok, s.writeBytes Config.progBase bs)

/-- `if v > 0 then v - 1` (R131). -/
def countDown (v : Byte) : Byte := if v.toNat > 0 then v - 1 else v

/-- Tick, whatever the core's status (R131, D36). -/
def State.tick (s : State) : State := (s.setDT (countDown s.DT)).setST (countDown s.ST)

/-- KeyPress(k): it ends a wait, and is discarded when there is none (R115, D21). -/
def State.keyPress (s : State) (k : Fin 16) : State :=
  match s.wait with
  | some r => (s.setReg r (BitVec.ofNat 8 k.val)).setWait none
  | none => s

/-- The Step transaction with its reply: a Step that finds the core waiting is a Hold, one that ends with a record is Faulted,
any other is Ok (R63, R65, R66). -/
def State.hostStep (s : State) : Reply × State :=
  match step s with
  | .next t =>
    (match s.wait, t.fault with
     | some _, _ => .hold
     | none, some r => .faulted r
     | none, none => .ok, t)
  | .fault (.recorded r) => (.faulted r, s)
  | .refused r => (.refused r, s)

/-- One transaction on a machine whose `FONT_IMAGE` is `font` (R136). -/
def transact (font : Config.FontImage) (t : Transaction) (s : State) : Reply × State :=
  match t with
  | .reset => (.unit, s.hostReset font)
  | .load image => s.load image
  | .step => s.hostStep
  | .tick => (.unit, s.tick)
  | .setKey k pressed => (.unit, s.setKey k pressed)
  | .keyPress k => (.unit, s.keyPress k)
  | .readDisplay => (.display s.disp, s)
  | .readStatus => (.status s.ST s.wait.isSome s.fault, s)

/-- A schedule: the transactions in the order the host chooses (R126). -/
def runSchedule (font : Config.FontImage) : List Transaction → State → State
  | [], s => s
  | t :: ts, s => runSchedule font ts (transact font t s).2

end Sys2Proof.Machine
end

