-- ==== Sys2Proof/Safety.lean ====
section
/-! DEFINITION. Safety.lean: the terms the claims use: the elements of the state and what it is for one to be unchanged, the
matrix of writes of spec/10_state.md R31, when an instruction faults, the sprite as a set of cells, and the invariant. -/

namespace Sys2Proof.Machine

/-- The elements of the state (R13), and the model's own two. -/
inductive Elem where
  | mem | x | I | pc | stack | sp | DT | ST | key | disp | wait | fault | injected | drawCount
  deriving DecidableEq, Repr

/-- The element reads the same in `s` and in `t`: memory through the read of each byte, registers through the read of each
register. -/
def Elem.same (s t : State) : Elem → Prop
  | .mem => ∀ a : Nat, t.mem.read a = s.mem.read a
  | .x => ∀ r : Reg, t.reg r = s.reg r
  | .I => t.I = s.I
  | .pc => t.pc = s.pc
  | .stack => t.stack = s.stack
  | .sp => t.sp = s.sp
  | .DT => t.DT = s.DT
  | .ST => t.ST = s.ST
  | .key => t.key = s.key
  | .disp => t.disp = s.disp
  | .wait => t.wait = s.wait
  | .fault => t.fault = s.fault
  | .injected => t.injected = s.injected
  | .drawCount => t.drawCount = s.drawCount

/-- Every element but those named is unchanged from `s` to `t`. -/
def SameBut (changed : List Elem) (s t : State) : Prop := ∀ e : Elem, e ∉ changed → e.same s t

/-- Every register but those named is unchanged from `s` to `t`. -/
def RegsSameBut (changed : List Reg) (s t : State) : Prop := ∀ r : Reg, r ∉ changed → t.reg r = s.reg r

/-- Every byte of memory outside `lo`..`lo + n - 1` reads the same in `s` and in `t`. -/
def MemSameOutside (lo n : Nat) (s t : State) : Prop :=
  ∀ a : Nat, (a < lo ∨ lo + n ≤ a) → t.mem.read a = s.mem.read a

/-- The core executes an instruction at its next Step: no fault is recorded and it waits for no key (R63). -/
def State.running (s : State) : Prop := s.fault = none ∧ s.wait = none

/-- The elements an instruction may write (R31), beside the `pc` its fetch advances: `pc` stands here for the control transfers and
skips, `fault` for the instructions that can fault (R120), `injected` and `drawCount` for the draw of CXNN. -/
def writes : Instr → List Elem
  | .cls => [.disp]
  | .ret => [.sp, .pc, .fault]
  | .jp _ | .jpV0 _ => [.pc]
  | .call _ => [.stack, .sp, .pc, .fault]
  | .seImm _ _ | .sneImm _ _ | .seReg _ _ | .sneReg _ _ | .skp _ | .sknp _ => [.pc]
  | .ldImm _ _ | .addImm _ _ | .ldReg _ _ | .orReg _ _ | .andReg _ _ | .xorReg _ _ => [.x]
  | .addReg _ _ | .subReg _ _ | .shr _ _ | .subn _ _ | .shl _ _ | .ldVxDT _ => [.x]
  | .rnd _ _ => [.x, .injected, .drawCount]
  | .ldI _ | .addI _ | .ldF _ => [.I]
  | .drw _ _ _ => [.x, .disp, .fault]
  | .ldVxK _ => [.wait]
  | .ldDTVx _ => [.DT]
  | .ldSTVx _ => [.ST]
  | .ldB _ | .storeRegs _ => [.mem, .fault]
  | .loadRegs _ => [.x, .fault]

/-- The registers an instruction may write: X, VF where the flag is written (R15, R31), and V0 to Vx for FX65. -/
def regWrites : Instr → List Reg
  | .ldImm x _ | .addImm x _ | .ldReg x _ | .orReg x _ | .andReg x _ | .xorReg x _ | .rnd x _ | .ldVxDT x => [x]
  | .addReg x _ | .subReg x _ | .shr x _ | .subn x _ | .shl x _ => [x, VF]
  | .drw _ _ _ => [VF]
  | .loadRegs x => (List.finRange 16).filter (· ≤ x)
  | .cls | .ret | .jp _ | .call _ | .seImm _ _ | .sneImm _ _ | .seReg _ _ | .sneReg _ _ | .ldI _ | .jpV0 _ | .skp _ | .sknp _
  | .ldVxK _ | .ldDTVx _ | .ldSTVx _ | .addI _ | .ldF _ | .ldB _ | .storeRegs _ => []

/-- The elements an instruction reads (R31), `pc` for the skips and for the address in a fault record. -/
def reads : Instr → List Elem
  | .cls | .jp _ | .ldImm _ _ | .ldI _ | .ldVxK _ => []
  | .ret => [.stack, .sp, .pc]
  | .call _ => [.sp, .pc]
  | .seImm _ _ | .sneImm _ _ | .seReg _ _ | .sneReg _ _ => [.x, .pc]
  | .addImm _ _ | .ldReg _ _ | .orReg _ _ | .andReg _ _ | .xorReg _ _ | .addReg _ _ | .subReg _ _ | .shr _ _ | .subn _ _
  | .shl _ _ | .jpV0 _ | .ldDTVx _ | .ldSTVx _ | .ldF _ => [.x]
  | .rnd _ _ => [.injected, .drawCount]
  | .drw _ _ _ => [.x, .I, .mem, .disp, .pc]
  | .skp _ | .sknp _ => [.x, .key, .pc]
  | .ldVxDT _ => [.DT]
  | .addI _ => [.x, .I]
  | .ldB _ | .storeRegs _ => [.x, .I, .pc]
  | .loadRegs _ => [.I, .mem, .pc]

/-- An access of `n` bytes at `I` leaves the 4096 bytes (R39). -/
def accessOutside (s : State) (n : Nat) : Prop := 0 < n ∧ 0xFFF < s.I.toNat + n - 1

/-- The one fault the execute phase of an instruction can raise, and when (R120, R123). -/
def faultsWith (s : State) : Instr → FaultKind → Prop
  | .ret, k => k = .stackUnderflow ∧ s.sp.val = 0
  | .call _, k => k = .stackOverflow ∧ s.sp.val = 16
  | .drw _ _ n, k => k = .memoryBounds ∧ accessOutside s n.val
  | .ldB _, k => k = .memoryBounds ∧ accessOutside s 3
  | .storeRegs x, k => k = .memoryBounds ∧ accessOutside s (x.val + 1)
  | .loadRegs x, k => k = .memoryBounds ∧ accessOutside s (x.val + 1)
  | .cls, _ | .jp _, _ | .seImm _ _, _ | .sneImm _ _, _ | .seReg _ _, _ | .ldImm _ _, _ | .addImm _ _, _ | .ldReg _ _, _
  | .orReg _ _, _ | .andReg _ _, _ | .xorReg _ _, _ | .addReg _ _, _ | .subReg _ _, _ | .shr _ _, _ | .subn _ _, _
  | .shl _ _, _ | .sneReg _ _, _ | .ldI _, _ | .jpV0 _, _ | .rnd _ _, _ | .skp _, _ | .sknp _, _ | .ldVxDT _, _
  | .ldVxK _, _ | .ldDTVx _, _ | .ldSTVx _, _ | .addI _, _ | .ldF _, _ => False

/-- The sprite of `n` rows at `I` with origin (x0, y0) has a set bit on the cell (y, x): the cell is column c and row r of the
sprite, counted from the origin with wrap, and bit 7 - c of byte r is 1 (R103, R104, R105). -/
def spriteCovers (s : State) (n x0 y0 : Nat) (y : Fin 32) (x : Fin 64) : Prop :=
  ∃ r c : Nat, r < n ∧ c < 8 ∧ y.val = (y0 + r) % 32 ∧ x.val = (x0 + c) % 64 ∧
    (s.mem.read (s.I.toNat + r)).getLsbD (7 - c) = true

/-- What a recorded fault says of the core: `pc`, and the cause where the record's kind names one the state still shows (R121,
R122). -/
def FaultRecord.fits (s : State) (r : FaultRecord) : Prop :=
  match r.word with
  | none => r.kind = .memoryBounds ∧ s.pc = r.addr ∧ 0xFFE < r.addr.toNat
  | some w =>
    r.addr.toNat ≤ 0xFFE ∧ s.pc.toNat = r.addr.toNat + 2 ∧
      match r.kind with
      | .unknownOpcode => decodeWord w = .error (.unknownOpcode w)
      | .stackUnderflow => decodeWord w = .ok .ret ∧ s.sp.val = 0
      | .stackOverflow => (∃ nnn, decodeWord w = .ok (.call nnn)) ∧ s.sp.val = 16
      | .memoryBounds => ∃ i, decodeWord w = .ok i ∧ faultsWith s i .memoryBounds

/-- What holds of the core at reset and after every transaction. -/
structure State.Inv (s : State) : Prop where
  /-- Memory is in canonical form and inside its 4096 addresses (R25, R35; log entry 10). -/
  memWf : s.mem.wf = true
  /-- The largest value `pc` can hold is 0x10FE (R17). -/
  pcBound : s.pc.toNat ≤ 0x10FE
  /-- Every stack entry is an address a fetch can have advanced to (R20, R64, R70). -/
  stackBound : ∀ k : Fin 16, s.stack[k.val].toNat ≤ 0x1000
  /-- A faulted core waits for no key: the wait gates every instruction (R63). -/
  faultNotWaiting : s.fault ≠ none → s.wait = none
  /-- A recorded fault is precise (R122). -/
  faultFits : ∀ r, s.fault = some r → r.fits s

/-- The states a schedule reaches from reset. -/
def Reachable (font : Config.FontImage) (s : State) : Prop :=
  ∃ ts : List Transaction, s = runSchedule font ts (State.resetWith font)

/-- The next Step finds `pc` outside memory: it raises MemoryBounds with no word and changes nothing else (R64). -/
def NextFetchFaults (t : State) : Prop :=
  ∃ u, step t = .next u ∧ u.fault = some ⟨.memoryBounds, t.pc, none⟩ ∧ SameBut [.fault] t u

/-! What it is for exactly the words of one shape to decode to an instruction (R53, R57). -/

/-- Shape A: the leading nibble selects, NNN is the operand. -/
def DecodesA (op : Nat) (f : Addr12 → Instr) : Prop :=
  ∀ (w : Word) (a : Addr12), decodeWord w = .ok (f a) ↔ bits w 15 12 = op ∧ bits w 11 0 = a.toNat

/-- Shape XK: the leading nibble selects, X and NN are the operands. -/
def DecodesXK (op : Nat) (f : Reg → Byte → Instr) : Prop :=
  ∀ (w : Word) (x : Reg) (k : Byte),
    decodeWord w = .ok (f x k) ↔ bits w 15 12 = op ∧ bits w 11 8 = x.val ∧ bits w 7 0 = k.toNat

/-- Shape XY: the leading and the fourth nibble select, X and Y are the operands. -/
def DecodesXY (op n : Nat) (f : Reg → Reg → Instr) : Prop :=
  ∀ (w : Word) (x y : Reg),
    decodeWord w = .ok (f x y) ↔ bits w 15 12 = op ∧ bits w 3 0 = n ∧ bits w 11 8 = x.val ∧ bits w 7 4 = y.val

/-- Shape XF: the leading nibble and the low byte select, X is the operand. -/
def DecodesXF (op low : Nat) (f : Reg → Instr) : Prop :=
  ∀ (w : Word) (x : Reg), decodeWord w = .ok (f x) ↔ bits w 15 12 = op ∧ bits w 7 0 = low ∧ bits w 11 8 = x.val

end Sys2Proof.Machine
end

