-- ==== Sys2Proof/Certificates/Slice0/Obligations.lean ====
section
/-! DEFINITION. Obligations.lean: the statements for the provers, in the order of OBLIGATIONS.json. A statement that rests on one
of the spec's own decisions (spec/92_eei_decisions.md D<n>) or on a choice of the model says so in its docstring. -/

open Sys2Proof Sys2Proof.Machine

/-- The bytes of one word of each family (each leading nibble, 0 to F), written out from the encodings of the opcode map,
decode to the instruction the map names, with its operands. (That the fourth nibble of 8124 selects the addition is the
spec's decision D9; that the fourth nibble 0 belongs to 5120 and 9120 is D8.) [30_encoding.md section 3 (opcode map),
95_test_vectors.md section 2, 92_eei_decisions.md D8, D9] -/
def Obligations.SampleWordsDecode : Prop :=
  decodeBytes [0x00, 0xE0] = .ok (.cls, []) ∧ decodeBytes [0x12, 0x34] = .ok (.jp 0x234, []) ∧
  decodeBytes [0x2A, 0xBC] = .ok (.call 0xABC, []) ∧ decodeBytes [0x3A, 0x07] = .ok (.seImm 0xA 0x07, []) ∧
  decodeBytes [0x4B, 0x80] = .ok (.sneImm 0xB 0x80, []) ∧ decodeBytes [0x51, 0x20] = .ok (.seReg 1 2, []) ∧
  decodeBytes [0x6F, 0x01] = .ok (.ldImm 0xF 0x01, []) ∧ decodeBytes [0x71, 0xFF] = .ok (.addImm 1 0xFF, []) ∧
  decodeBytes [0x81, 0x24] = .ok (.addReg 1 2, []) ∧ decodeBytes [0x91, 0x20] = .ok (.sneReg 1 2, []) ∧
  decodeBytes [0xA1, 0x23] = .ok (.ldI 0x123, []) ∧ decodeBytes [0xB3, 0x00] = .ok (.jpV0 0x300, []) ∧
  decodeBytes [0xC3, 0x0F] = .ok (.rnd 3 0x0F, []) ∧ decodeBytes [0xD0, 0x12] = .ok (.drw 0 1 2, []) ∧
  decodeBytes [0xE5, 0x9E] = .ok (.skp 5, []) ∧ decodeBytes [0xF2, 0x55] = .ok (.storeRegs 2, [])

/-- For every instruction of the opcode table, at every value of its operands, and every list of bytes after it: decoding
the instruction's two bytes, the high byte first, answers exactly that instruction and the bytes after it. (The numbers
of the 8XY* family are the spec's decision D9.) [30_encoding.md sections 1 to 5, 20_memory.md section 2] -/
def Obligations.DecodeOfEncodedBytesIsTheInstruction : Prop :=
  ∀ (i : Instr) (rest : List Byte), decodeBytes (encodeBytes i ++ rest) = .ok (i, rest)

/-- For every word that decodes to an instruction, the encoder answers that same word, the ignored Y of 8XY6 and 8XYE
included. This is why the word of a fault record can be recomputed from the instruction (log entry 8). [30_encoding.md
sections 1 and 3] -/
def Obligations.EncodeOfDecodedWordIsTheWord : Prop :=
  ∀ (w : Word) (i : Instr), decodeWord w = .ok i → encode i = w

/-- Decoding is total: every word decodes to an instruction or is refused as unknownOpcode with that word. It is refused
exactly when: family 0 with NNN other than 0E0 and 0EE; family 5 or 9 with N not 0; family 8 with N in 8 to D or F;
family E with NN other than 9E and A1; family F with NN none of the nine. (Families 0, 5 and 9 rest on the spec's
decisions D8, D32 and D33.) [30_encoding.md section 4, 92_eei_decisions.md D8, D32, D33] -/
def Obligations.IllegalWordsAreExactlyThoseListed : Prop :=
  ∀ w : Word,
    ((∃ i, decodeWord w = .ok i) ∨ decodeWord w = .error (.unknownOpcode w)) ∧
    (decodeWord w = .error (.unknownOpcode w) ↔
      (bits w 15 12 = 0x0 ∧ bits w 11 0 ≠ 0x0E0 ∧ bits w 11 0 ≠ 0x0EE) ∨
      (bits w 15 12 = 0x5 ∧ bits w 3 0 ≠ 0x0) ∨
      (bits w 15 12 = 0x8 ∧ bits w 3 0 ∈ [0x8, 0x9, 0xA, 0xB, 0xC, 0xD, 0xF]) ∨
      (bits w 15 12 = 0x9 ∧ bits w 3 0 ≠ 0x0) ∨
      (bits w 15 12 = 0xE ∧ bits w 7 0 ∉ [0x9E, 0xA1]) ∨
      (bits w 15 12 = 0xF ∧ bits w 7 0 ∉ [0x07, 0x0A, 0x15, 0x18, 0x1E, 0x29, 0x33, 0x55, 0x65]))

/-- For every row of the opcode table and every word: the word holds the row's values in the row's fixed fields exactly when
it decodes to an instruction whose mnemonic is the row's; so no word is selected by two rows. No two rows have one
mnemonic. (The 8XY* rows rest on the spec's decision D9, 5XY0 and 9XY0 on D8.) [30_encoding.md section 3,
opcode_table.json] -/
def Obligations.OpcodeTableRowSelectsItsInstruction : Prop :=
  (∀ (r : Row) (w : Word), r ∈ opcodeTable →
    (r.selects w = true ↔ ∃ i, decodeWord w = .ok i ∧ i.mnemonic = r.mnemonic)) ∧
  (opcodeTable.map Row.mnemonic).Nodup ∧
  ∀ i : Instr, ∃ r ∈ opcodeTable, r.mnemonic = i.mnemonic

/-- The line of any instruction is well-formed and stands for that instruction, and its bytes are the instruction's. A line
has bytes exactly when it is well-formed, that is, when every operand fits the width the notation gives it. SHR and SHL
without the optional Vy stand for Y = 0. (The notation is the spec's decision D27, from general knowledge.)
[30_encoding.md section 6, 92_eei_decisions.md D27] -/
def Obligations.AssemblerLinesAndInstructionsAgree : Prop :=
  (∀ i : Instr, (asmOfInstr i).wellFormed = true ∧ instrOfAsm (asmOfInstr i) = some i ∧
    bytesOfAsm (asmOfInstr i) = some (encodeBytes i)) ∧
  (∀ l : Asm, (bytesOfAsm l).isSome = l.wellFormed) ∧
  (∀ x : Reg, instrOfAsm (.shr x.val none) = some (.shr x 0) ∧ instrOfAsm (.shl x.val none) = some (.shl x 0))

/-- For every core with no fault and no wait, pc at most 0xFFE, and every word whose bits 15:8 are the byte at pc and whose
bits 7:0 are the byte at pc + 1: if the word decodes to an instruction, the Step answers what executing it answers on
the same state with pc advanced by 2. [R16, R38] -/
def Obligations.StepRunsTheDecodedInstruction : Prop :=
  ∀ (s : State) (w : Word) (i : Instr), s.running → s.pc.toNat ≤ 0xFFE →
    bits w 15 8 = (s.mem.read s.pc.toNat).toNat → bits w 7 0 = (s.mem.read (s.pc.toNat + 1)).toNat →
    decodeWord w = .ok i → step s = exec i { s with pc := s.pc + 2 }

/-- For every state: the Step is Ok and has applied exactly one instruction, the one decoded from the fetched word; or it is
Hold and has changed no state; or it is Faulted(record) and has changed nothing but the fetch's pc advance and the fault
element, which holds the record. [R66] -/
def Obligations.StepAnswersOkHoldOrFaulted : Prop :=
  ∀ s : State,
    (∃ t w i, s.hostStep = (.ok, t) ∧ s.fetchWord = some w ∧ decodeWord w = .ok i ∧
      exec i (s.setPc (s.pc + 2)) = .next t) ∨
    s.hostStep = (.hold, s) ∨
    (∃ r t, s.hostStep = (.faulted r, t) ∧ SameBut [.pc, .fault] s t ∧ t.fault = some r ∧
      (t.pc = s.pc ∨ t.pc = s.pc + 2))

/-- A core with a recorded fault answers that same fault, whatever the wait, and the Step transaction leaves the state as it
was; a core that waits for a key answers the same state, and the transaction is a Hold. (The order, the sticky fault and
the wait are the spec's decisions D4, D6 and D21; a repeated fault is the interface's fault outcome by log entry 3.)
[30_encoding.md section 7, 60_exceptions.md section 2, 92_eei_decisions.md D4, D6, D21] -/
def Obligations.StepGatesOnRecordedFaultThenWait : Prop :=
  ∀ (font : Config.FontImage) (s : State),
    (∀ r, s.fault = some r → step s = .fault (.recorded r) ∧ transact font .step s = (.faulted r, s)) ∧
    (∀ q, s.fault = none → s.wait = some q → step s = .next s ∧ transact font .step s = (.hold, s))

/-- Every Step of a running core answers a next state. It records no fault exactly when a word is fetched, the word decodes
to an instruction, and none of the instruction's fault conditions holds. Otherwise the record's address is the pc at the
start of the Step, nothing but pc and the fault element has changed, and: the fetch was out of range, the kind is
MemoryBounds, the word is absent and pc is as it was; or the record holds the fetched word, pc is past it, and the kind
is UnknownOpcode for a refused word or the kind whose condition holds. (Precedence, preciseness and the record's form
are the spec's decisions D4, D5 and D37.) [60_exceptions.md sections 1 and 2, 30_encoding.md section 7,
92_eei_decisions.md D4, D5, D37] -/
def Obligations.StepFaultIsPreciseAndHasAListedCause : Prop :=
  ∀ s : State, s.running → ∃ t, step s = .next t ∧
    (t.fault = none ↔ ∃ w i, s.fetchWord = some w ∧ decodeWord w = .ok i ∧ ∀ k, ¬ faultsWith s i k) ∧
    (∀ r, t.fault = some r → r.addr = s.pc ∧ SameBut [.pc, .fault] s t ∧
      ((0xFFE < s.pc.toNat ∧ r.kind = .memoryBounds ∧ r.word = none ∧ t.pc = s.pc) ∨
       (∃ w, s.fetchWord = some w ∧ r.word = some w ∧ t.pc = s.pc + 2 ∧
        ((r.kind = .unknownOpcode ∧ decodeWord w = .error (.unknownOpcode w)) ∨
         ∃ i, decodeWord w = .ok i ∧ faultsWith s i r.kind))))

/-- For every instruction and every state with no recorded fault, execution answers a next state. It records a fault exactly
when the instruction's condition holds: 00EE with sp = 0, 2NNN with sp = 16, DXYN, FX33, FX55 and FX65 with an access
past 0xFFF; no other instruction can fault. The record then holds that kind, the instruction's address (pc - 2) and its
word, and nothing else has changed. (All-or-nothing and the record's form are the spec's decisions D5, D18 and D37.)
[60_exceptions.md sections 1 and 2, 92_eei_decisions.md D5, D18, D37] -/
def Obligations.InstructionFaultsExactlyOnItsCondition : Prop :=
  ∀ (i : Instr) (s : State), s.fault = none → ∃ t, exec i s = .next t ∧
    (∀ k, faultsWith s i k → t.fault = some ⟨k, s.pc - 2, some (encode i)⟩ ∧ SameBut [.fault] s t) ∧
    ((∀ k, ¬ faultsWith s i k) → t.fault = none)

/-- The state after reset meets the invariant (canonical memory, pc at most 0x10FE, stack entries at most 0x1000, a faulted
core not waiting, a recorded fault precise), whatever FONT_IMAGE is. [10_state.md section 11, 70_reset_and_hazards.md
section 1] -/
def Obligations.InvariantHoldsAtReset : Prop :=
  (∀ font : Config.FontImage, (State.resetWith font).Inv) ∧ State.reset.Inv

/-- From every state that meets the invariant, if the Step answers a next state, that state meets it: memory is canonical
inside its 4096 addresses; pc is at most 0x10FE, the largest value the spec derives; every stack entry is at most
0x1000; a faulted core waits for no key; and a recorded fault fits the state (pc at the record's address, or 2 past it,
and the cause still shown). (Preciseness is the spec's decision D5.) [10_state.md sections 3, 5, 9 and 10,
60_exceptions.md section 1] -/
def Obligations.InvariantKeptByEveryStep : Prop :=
  ∀ s t : State, s.Inv → step s = .next t → t.Inv

/-- The state after reset meets the invariant, for every font image. From every state that meets it, whichever host
transaction comes next (Reset, Load, Step, Tick, SetKey, KeyPress, ReadDisplay, ReadStatus), the state after it meets
it; a Step of a faulted or waiting core is included. So the state that any list of transactions leads to from reset
meets it. (That any order is admitted is the spec's decision D2.) [60_exceptions.md sections 4 and 7, 10_state.md
sections 3, 5, 9 and 10, 92_eei_decisions.md D1, D2] -/
def Obligations.InvariantHoldsInEveryReachableState : Prop :=
  (∀ font : Config.FontImage, (State.resetWith font).Inv) ∧
  (∀ (font : Config.FontImage) (t : Transaction) (s : State), s.Inv → (transact font t s).2.Inv) ∧
  (∀ (font : Config.FontImage) (s : State), Reachable font s → s.Inv)

/-- For every instruction and every state, execution answers a next state in which every element of the state outside the
instruction's row of the spec's read/write matrix is unchanged (memory byte by byte), and every register but its
destinations (X, VF for the flag writers and DXYN, V0 to Vx for FX65) keeps its value; the fault element is in the rows
of the instructions that can fault, and the model's draw fields are in the row of CXNN. [10_state.md section 12] -/
def Obligations.InstructionWritesOnlyItsRowOfTheMatrix : Prop :=
  ∀ (i : Instr) (s : State), ∃ t, exec i s = .next t ∧ SameBut (writes i) s t ∧ RegsSameBut (regWrites i) s t

/-- For every instruction and two states with canonical memories that agree on every element the instruction reads or writes
according to the spec's matrix: execution answers next states that agree on every element it writes. So no instruction's
result depends, for example, on ST, on a timer other than through FX07, on the keypad other than through EX9E and EXA1,
or on the wait. [10_state.md section 12] -/
def Obligations.OutcomeDependsOnlyOnTheMatrixRow : Prop :=
  ∀ (i : Instr) (s s' : State), s.mem.wf = true → s'.mem.wf = true → (∀ e ∈ reads i ++ writes i, e.same s s') →
    ∃ t t', exec i s = .next t ∧ exec i s' = .next t' ∧ ∀ e ∈ writes i, e.same t t'

/-- An instruction that changes I is ANNN, FX1E or FX29. An instruction that takes I from at most 0xFFF to above it is FX1E.
With I above 0xFFF, FX33, FX55, FX65 and DXYN with N > 0 record MemoryBounds and leave everything else unchanged.
[10_state.md section 4] -/
def Obligations.AddressRegisterWrittenOnlyByItsThreeInstructions : Prop :=
  (∀ (i : Instr) (s t : State), exec i s = .next t → t.I ≠ s.I →
    (∃ nnn, i = .ldI nnn) ∨ (∃ x, i = .addI x) ∨ ∃ x, i = .ldF x) ∧
  (∀ (i : Instr) (s t : State), exec i s = .next t → s.I.toNat ≤ 0xFFF → 0xFFF < t.I.toNat → ∃ x, i = .addI x) ∧
  (∀ (i : Instr) (s : State), 0xFFF < s.I.toNat →
    ((∃ x, i = .ldB x ∨ i = .storeRegs x ∨ i = .loadRegs x) ∨ ∃ x y n, i = .drw x y n ∧ n ≠ 0) →
    ∃ t, exec i s = .next t ∧ t.fault = some ⟨.memoryBounds, s.pc - 2, some (encode i)⟩ ∧ SameBut [.fault] s t)

/-- Every instruction but FX15 leaves DT unchanged and every instruction but FX18 leaves ST unchanged. Changing ST before
any instruction changes nothing but ST after it; changing DT before any instruction but FX07 changes nothing but DT
after it. FX07 reads DT into its register. The host reads ST with ReadStatus. A Tick takes each timer one down, never
below zero, and changes nothing else. Both are 8 bits by their type. [R22] -/
def Obligations.TimersHaveTheirWritersAndReaders : Prop :=
  (∀ (i : Instr) (s t : State), exec i s = .next t →
    ((∀ x, i ≠ .ldDTVx x) → t.DT = s.DT) ∧ ((∀ x, i ≠ .ldSTVx x) → t.ST = s.ST)) ∧
  (∀ (i : Instr) (s : State) (v : Byte), ∃ t u, exec i s = .next t ∧ exec i (s.setST v) = .next u ∧ SameBut [.ST] t u) ∧
  (∀ (i : Instr) (s : State) (v : Byte), (∀ x, i ≠ .ldVxDT x) →
    ∃ t u, exec i s = .next t ∧ exec i (s.setDT v) = .next u ∧ SameBut [.DT] t u) ∧
  (∀ (x : Reg) (s : State),
    (∃ t, exec (.ldVxDT x) s = .next t ∧ t.reg x = s.DT) ∧ (∃ t, exec (.ldDTVx x) s = .next t ∧ t.DT = s.reg x) ∧
    ∃ t, exec (.ldSTVx x) s = .next t ∧ t.ST = s.reg x) ∧
  (∀ (font : Config.FontImage) (s : State),
    (transact font .readStatus s).1 = .status s.ST s.wait.isSome s.fault ∧
    ((transact font .tick s).2.DT.toNat = s.DT.toNat - 1 ∧ (transact font .tick s).2.ST.toNat = s.ST.toNat - 1 ∧
      SameBut [.DT, .ST] s (transact font .tick s).2))

/-- Every instruction leaves the keypad unchanged. Replacing the keypad before any instruction but EX9E and EXA1 changes
nothing but the keypad after it. EX9E and EXA1 read it: with all keys pressed EX9E skips and EXA1 does not, with none
pressed EXA1 skips and EX9E does not, whatever the register holds. SetKey(k, pressed) writes key k and nothing else;
every other transaction but Reset leaves the keypad unchanged. [R23] -/
def Obligations.KeypadWrittenOnlyBySetKey : Prop :=
  (∀ (i : Instr) (s : State), ∃ t, exec i s = .next t ∧ t.key = s.key) ∧
  (∀ (i : Instr) (s : State) (keys : Vector Bool 16), (∀ x, i ≠ .skp x ∧ i ≠ .sknp x) →
    ∃ t u, exec i s = .next t ∧ exec i { s with key := keys } = .next u ∧ SameBut [.key] t u) ∧
  (∀ (x : Reg) (s : State) (pressed : Bool),
    (∃ t, exec (.skp x) { s with key := Vector.replicate 16 pressed } = .next t ∧
      t.pc = if pressed then s.pc + 2 else s.pc) ∧
    ∃ t, exec (.sknp x) { s with key := Vector.replicate 16 pressed } = .next t ∧
      t.pc = if pressed then s.pc else s.pc + 2) ∧
  (∀ (font : Config.FontImage) (s : State) (k : Fin 16) (pressed : Bool),
    (transact font (.setKey k pressed) s).2.key[k.val] = pressed ∧
    (∀ j : Fin 16, j ≠ k → (transact font (.setKey k pressed) s).2.key[j.val] = s.key[j.val]) ∧
    SameBut [.key] s (transact font (.setKey k pressed) s).2) ∧
  (∀ (font : Config.FontImage) (t : Transaction) (s : State),
    t ≠ .reset → (∀ k p, t ≠ .setKey k p) → (transact font t s).2.key = s.key)

/-- An instruction that changes the display is 00E0 or DXYN. Replacing the display before any instruction but DXYN changes
nothing but the display after it. Every host transaction but Step and Reset leaves it unchanged, and ReadDisplay answers
it. [10_state.md section 8, 43_display.md sections on 00E0, DXYN and derived properties] -/
def Obligations.DisplayWrittenOnlyByClearAndDraw : Prop :=
  (∀ (i : Instr) (s t : State), exec i s = .next t → t.disp ≠ s.disp → i = .cls ∨ ∃ x y n, i = .drw x y n) ∧
  (∀ (i : Instr) (s : State) (d : Display), (∀ x y n, i ≠ .drw x y n) →
    ∃ t u, exec i s = .next t ∧ exec i (s.setDisp d) = .next u ∧ SameBut [.disp] t u) ∧
  (∀ (font : Config.FontImage) (t : Transaction) (s : State), t ≠ .reset → t ≠ .step →
    (transact font t s).2.disp = s.disp) ∧
  (∀ (font : Config.FontImage) (s : State), transact font .readDisplay s = (.display s.disp, s))

/-- Exactly the word 0x00E0 decodes to 00E0, and for every state its execution answers a next state in which all 2048 pixels
are 0 and everything else, VF, memory, I and the registers among it, is unchanged. [R102] -/
def Obligations.ClearScreenBlanksEveryPixel : Prop :=
  (∀ w : Word, decodeWord w = .ok .cls ↔ w = 0x00E0) ∧
  ∀ s : State, ∃ t, exec .cls s = .next t ∧ (∀ y x, pixel t.disp y x = false) ∧ SameBut [.disp] s t

/-- Exactly the word 0x00EE decodes to 00EE. With sp > 0 it answers a next state with pc the top entry, unchecked, sp one
less and everything else unchanged, the stack entries among it. With sp = 0 it records StackUnderflow with the address
pc - 2 and the word 0x00EE, and pc, sp and everything else are unchanged. [R68] -/
def Obligations.ReturnPopsThePcOrUnderflows : Prop :=
  (∀ w : Word, decodeWord w = .ok .ret ↔ w = 0x00EE) ∧
  ∀ s : State,
    (∀ k : Fin 16, s.sp.val = k.val + 1 → ∃ t, exec .ret s = .next t ∧ t.pc = s.stack[k.val] ∧ t.sp.val = k.val ∧
      SameBut [.pc, .sp] s t) ∧
    (s.sp.val = 0 → ∃ t, exec .ret s = .next t ∧ t.fault = some ⟨.stackUnderflow, s.pc - 2, some 0x00EE⟩ ∧
      SameBut [.fault] s t)

/-- Exactly the words with leading nibble 1 decode to 1NNN with their low three nibbles as NNN. For every state, odd NNN and
a jump to itself included, execution answers a next state with pc = NNN and everything else unchanged; if the core is
running and NNN is 0xFFF, the next Step's fetch records MemoryBounds. [R69] -/
def Obligations.JumpSetsThePc : Prop :=
  DecodesA 0x1 .jp ∧
  ∀ (nnn : Addr12) (s : State), ∃ t, exec (.jp nnn) s = .next t ∧ t.pc.toNat = nnn.toNat ∧ SameBut [.pc] s t ∧
    (s.running → nnn = 0xFFF → NextFetchFaults t)

/-- Exactly the words with leading nibble 2 decode to 2NNN. With sp < 16 execution answers a next state with the current pc
in entry sp, every other entry unchanged, sp one more, pc = NNN and everything else unchanged. With sp = 16 it records
StackOverflow with the address pc - 2 and the word, and the stack, sp, pc and everything else are unchanged. (16-bit
entries, which a call at 0xFFE needs, are the spec's decision D20.) [40_control_flow.md section '2NNN call', 10_state.md
section 5, 92_eei_decisions.md D20] -/
def Obligations.CallPushesTheAdvancedPcOrOverflows : Prop :=
  DecodesA 0x2 .call ∧
  ∀ (nnn : Addr12) (s : State),
    (∀ k : Fin 16, s.sp.val = k.val → ∃ t, exec (.call nnn) s = .next t ∧ t.stack[k.val] = s.pc ∧
      (∀ j : Fin 16, j ≠ k → t.stack[j.val] = s.stack[j.val]) ∧ t.sp.val = k.val + 1 ∧ t.pc.toNat = nnn.toNat ∧
      SameBut [.stack, .sp, .pc] s t) ∧
    (s.sp.val = 16 → ∃ t, exec (.call nnn) s = .next t ∧
      t.fault = some ⟨.stackOverflow, s.pc - 2, some (encode (.call nnn))⟩ ∧ SameBut [.fault] s t)

/-- For every running core with sp < 16 whose fetched word is a call to an address whose two bytes, in range, are 00 EE: two
Steps complete, pc is then the call's address + 2, sp is what it was, and nothing but pc and the stack entry written has
changed. [40_control_flow.md section '2NNN call'] -/
def Obligations.CallThenReturnIsARoundTrip : Prop :=
  ∀ (s : State) (w : Word) (nnn : Addr12), s.running → s.sp.val < 16 → s.fetchWord = some w →
    decodeWord w = .ok (.call nnn) → nnn.toNat ≤ 0xFFE → s.mem.read nnn.toNat = 0x00 → s.mem.read (nnn.toNat + 1) = 0xEE →
    ∃ t u, step s = .next t ∧ step t = .next u ∧ u.pc = s.pc + 2 ∧ u.sp = s.sp ∧ SameBut [.pc, .stack] s u ∧
      (∀ j : Fin 16, j.val ≠ s.sp.val → u.stack[j.val] = s.stack[j.val])

/-- Exactly the words with leading nibble 3 decode to 3XNN and those with leading nibble 4 to 4XNN, with their X and NN. For
every register, VF included, every NN and every state, execution answers a next state in which pc is 2 further if x[X] =
NN (3XNN) or x[X] is not NN (4XNN) and otherwise as the fetch set it, and nothing else has changed: 4XNN writes no
register. A taken skip at 0xFFE gives pc = 0x1002 and the next fetch of a running core faults. [R72, R73] -/
def Obligations.SkipOnImmediateAddsTwoToThePc : Prop :=
  DecodesXK 0x3 .seImm ∧ DecodesXK 0x4 .sneImm ∧
  ∀ (x : Reg) (nn : Byte) (s : State),
    (∃ t, exec (.seImm x nn) s = .next t ∧ t.pc = (if s.reg x = nn then s.pc + 2 else s.pc) ∧ SameBut [.pc] s t ∧
      (s.running → s.pc = 0x1000 → s.reg x = nn → t.pc = 0x1002 ∧ NextFetchFaults t)) ∧
    (∃ t, exec (.sneImm x nn) s = .next t ∧ t.pc = (if s.reg x = nn then s.pc else s.pc + 2) ∧ SameBut [.pc] s t ∧
      (s.running → s.pc = 0x1000 → s.reg x ≠ nn → t.pc = 0x1002 ∧ NextFetchFaults t))

/-- Exactly the words with leading nibble 5 (9) and fourth nibble 0 decode to 5XY0 (9XY0). For all registers and states
execution answers a next state in which pc is 2 further if x[X] = x[Y] (5XY0) or they differ (9XY0), and nothing else
has changed. (That other fourth nibbles are illegal is the spec's decision D8.) [40_control_flow.md section '5XY0 and
9XY0 skip on registers', 92_eei_decisions.md D8] -/
def Obligations.SkipOnRegistersAddsTwoToThePc : Prop :=
  DecodesXY 0x5 0x0 .seReg ∧ DecodesXY 0x9 0x0 .sneReg ∧
  ∀ (x y : Reg) (s : State),
    (∃ t, exec (.seReg x y) s = .next t ∧ t.pc = (if s.reg x = s.reg y then s.pc + 2 else s.pc) ∧ SameBut [.pc] s t ∧
      (x = y → t.pc = s.pc + 2)) ∧
    (∃ t, exec (.sneReg x y) s = .next t ∧ t.pc = (if s.reg x = s.reg y then s.pc else s.pc + 2) ∧ SameBut [.pc] s t ∧
      (x = y → t.pc = s.pc))

/-- Exactly the words with leading nibble B decode to BNNN. For every state execution answers a next state with pc the
unreduced sum of NNN and V0, at most 0x10FE, and nothing else changed; if the core is running and the sum is 0xFFF or
more, the next Step's fetch records MemoryBounds. (That the sum is kept whole is the spec's decision D19.)
[40_control_flow.md section 'BNNN jump plus V0', 92_eei_decisions.md D19] -/
def Obligations.JumpPlusV0IsTheExactSum : Prop :=
  DecodesA 0xB .jpV0 ∧
  ∀ (nnn : Addr12) (s : State), ∃ t, exec (.jpV0 nnn) s = .next t ∧ t.pc.toNat = nnn.toNat + (s.reg 0).toNat ∧
    t.pc.toNat ≤ 0x10FE ∧ SameBut [.pc] s t ∧ (s.running → 0xFFF ≤ t.pc.toNat → NextFetchFaults t)

/-- Exactly the words with leading nibble 6 decode to 6XNN. For every register, VF included, execution answers a next state
with x[X] = NN, every other register and everything else unchanged; so VF changes only as the destination. [R79] -/
def Obligations.LoadImmediateWritesTheByte : Prop :=
  DecodesXK 0x6 .ldImm ∧
  ∀ (x : Reg) (nn : Byte) (s : State), ∃ t, exec (.ldImm x nn) s = .next t ∧ t.reg x = nn ∧ RegsSameBut [x] s t ∧
    SameBut [.x] s t

/-- Exactly the words with leading nibble 7 decode to 7XNN. For every register, VF included, every NN and every state,
execution answers a next state with x[X] = (x[X] + NN) mod 256, every other register and everything else unchanged.
[R80] -/
def Obligations.AddImmediateWrapsWithoutFlag : Prop :=
  DecodesXK 0x7 .addImm ∧
  ∀ (x : Reg) (nn : Byte) (s : State), ∃ t, exec (.addImm x nn) s = .next t ∧
    (t.reg x).toNat = ((s.reg x).toNat + nn.toNat) % 256 ∧ RegsSameBut [x] s t ∧ SameBut [.x] s t

/-- Exactly the words with leading nibble 8 and fourth nibble 0 decode to 8XY0. For all registers execution answers a next
state with x[X] the value x[Y] had, every other register and everything else unchanged; with X = Y nothing changes.
[R82] -/
def Obligations.AssignCopiesTheRegister : Prop :=
  DecodesXY 0x8 0x0 .ldReg ∧
  ∀ (x y : Reg) (s : State), ∃ t, exec (.ldReg x y) s = .next t ∧ t.reg x = s.reg y ∧ RegsSameBut [x] s t ∧
    SameBut [.x] s t ∧ (x = y → SameBut [] s t)

/-- Exactly the words with leading nibble 8 and fourth nibble 1, 2 or 3 decode to them. Execution answers a next state in
which each bit of x[X] is the OR, AND or XOR of that bit of x[X] and x[Y] as they were; every other register, VF among
them, and everything else is unchanged. (The numbers and the untouched VF are the spec's decisions D9 and D12.)
[41_alu.md section '8XY* register-to-register ALU family', 92_eei_decisions.md D9, D12] -/
def Obligations.LogicInstructionsAreBitwiseAndLeaveVF : Prop :=
  DecodesXY 0x8 0x1 .orReg ∧ DecodesXY 0x8 0x2 .andReg ∧ DecodesXY 0x8 0x3 .xorReg ∧
  ∀ (x y : Reg) (s : State),
    (∃ t, exec (.orReg x y) s = .next t ∧
      (∀ k < 8, (t.reg x).getLsbD k = ((s.reg x).getLsbD k || (s.reg y).getLsbD k)) ∧ RegsSameBut [x] s t ∧ SameBut [.x] s t) ∧
    (∃ t, exec (.andReg x y) s = .next t ∧
      (∀ k < 8, (t.reg x).getLsbD k = ((s.reg x).getLsbD k && (s.reg y).getLsbD k)) ∧ RegsSameBut [x] s t ∧ SameBut [.x] s t) ∧
    (∃ t, exec (.xorReg x y) s = .next t ∧
      (∀ k < 8, (t.reg x).getLsbD k = ((s.reg x).getLsbD k ^^ (s.reg y).getLsbD k)) ∧ RegsSameBut [x] s t ∧ SameBut [.x] s t)

/-- Exactly the words with leading nibble 8 and fourth nibble 4 decode to 8XY4. With a and b the values of x[X] and x[Y]
before, execution answers a next state with VF = 1 if a + b >= 256 and 0 otherwise, also when X = F; x[X] = (a + b) mod
256 for any other X; every other register and everything else unchanged. (The flag's values and its being written last
are the spec's decisions D10 and D13.) [41_alu.md section '8XY* register-to-register ALU family', 92_eei_decisions.md
D9, D10, D13] -/
def Obligations.AddWritesSumThenCarry : Prop :=
  DecodesXY 0x8 0x4 .addReg ∧
  ∀ (x y : Reg) (s : State), ∃ t, exec (.addReg x y) s = .next t ∧
    (x ≠ VF → (t.reg x).toNat = ((s.reg x).toNat + (s.reg y).toNat) % 256) ∧
    t.reg VF = (if 256 ≤ (s.reg x).toNat + (s.reg y).toNat then 1 else 0) ∧
    RegsSameBut [x, VF] s t ∧ SameBut [.x] s t

/-- Exactly the words with leading nibble 8 and fourth nibble 5 or 7 decode to them. With a and b the values of x[X] and
x[Y] before, 8XY5 answers a next state with x[X] = (a - b) mod 256 and VF = 1 if a >= b, else 0; 8XY7 with x[X] = (b -
a) mod 256 and VF = 1 if b >= a, else 0; with X = F the flag stays; every other register and everything else is
unchanged. (Polarity and write order are the spec's decisions D10 and D13.) [41_alu.md section '8XY* register-to-
register ALU family', 92_eei_decisions.md D9, D10, D13] -/
def Obligations.SubtractsWriteDifferenceThenNoBorrow : Prop :=
  DecodesXY 0x8 0x5 .subReg ∧ DecodesXY 0x8 0x7 .subn ∧
  ∀ (x y : Reg) (s : State),
    (∃ t, exec (.subReg x y) s = .next t ∧
      (x ≠ VF → ((t.reg x).toNat : Int) = (((s.reg x).toNat : Int) - ((s.reg y).toNat : Int)) % 256) ∧
      t.reg VF = (if (s.reg y).toNat ≤ (s.reg x).toNat then 1 else 0) ∧ RegsSameBut [x, VF] s t ∧ SameBut [.x] s t) ∧
    (∃ t, exec (.subn x y) s = .next t ∧
      (x ≠ VF → ((t.reg x).toNat : Int) = (((s.reg y).toNat : Int) - ((s.reg x).toNat : Int)) % 256) ∧
      t.reg VF = (if (s.reg x).toNat ≤ (s.reg y).toNat then 1 else 0) ∧ RegsSameBut [x, VF] s t ∧ SameBut [.x] s t)

/-- Exactly the words with leading nibble 8 and fourth nibble 6 or E decode to them. With a the value of x[X] before, 8XY6
answers a next state with x[X] = a div 2 and VF = bit 0 of a, 8XYE with x[X] = 2a mod 256 and VF = bit 7 of a; with X =
F the flag stays; every other register and everything else is unchanged. Y has no effect. (Shifting Vx, ignoring Y and
the write order are the spec's decisions D11 and D13.) [41_alu.md section '8XY* register-to-register ALU family',
30_encoding.md section 4, 92_eei_decisions.md D9, D11, D13] -/
def Obligations.ShiftsMoveVxByOneAndKeepTheBitOut : Prop :=
  DecodesXY 0x8 0x6 .shr ∧ DecodesXY 0x8 0xE .shl ∧
  ∀ (x y : Reg) (s : State),
    (∃ t, exec (.shr x y) s = .next t ∧ (x ≠ VF → (t.reg x).toNat = (s.reg x).toNat / 2) ∧
      (t.reg VF).toNat = (s.reg x).toNat % 2 ∧ RegsSameBut [x, VF] s t ∧ SameBut [.x] s t) ∧
    (∃ t, exec (.shl x y) s = .next t ∧ (x ≠ VF → (t.reg x).toNat = (s.reg x).toNat * 2 % 256) ∧
      (t.reg VF).toNat = (s.reg x).toNat / 128 ∧ RegsSameBut [x, VF] s t ∧ SameBut [.x] s t)

/-- Exactly the words with leading nibble C decode to CXNN. For every byte r the host's generator supplies, execution
answers a next state with x[X] = r AND NN and that draw taken; with none injected the draw is a free value of which
nothing is known. Every other register and every other element is unchanged. NN = 0 gives 0 whatever the draw. (The draw
as a free input is the spec's decision D23; the fields injected and drawCount are the model's, log entry 1.) [41_alu.md
section 'CXNN random', 60_exceptions.md section 7, 92_eei_decisions.md D23] -/
def Obligations.RandomTakesOneDrawAndMasksIt : Prop :=
  DecodesXK 0xC .rnd ∧
  ∀ (x : Reg) (nn : Byte) (s : State), ∃ t, exec (.rnd x nn) s = .next t ∧
    (∀ r rest, s.injected = r :: rest → t.reg x = r &&& nn ∧ t.injected = rest) ∧
    (s.injected = [] → t.reg x = Config.randomByte s.drawCount &&& nn ∧ t.injected = []) ∧
    t.drawCount = s.drawCount + 1 ∧ (nn = 0 → t.reg x = 0) ∧ RegsSameBut [x] s t ∧
    SameBut [.x, .injected, .drawCount] s t

/-- Exactly the words with leading nibble A decode to ANNN. For every state execution answers a next state with I = NNN, at
most 0xFFF, and everything else unchanged. [R94] -/
def Obligations.LoadAddressRegisterWritesNNN : Prop :=
  DecodesA 0xA .ldI ∧
  ∀ (nnn : Addr12) (s : State), ∃ t, exec (.ldI nnn) s = .next t ∧ t.I.toNat = nnn.toNat ∧ t.I.toNat ≤ 0xFFF ∧
    SameBut [.I] s t

/-- Exactly the words with leading nibble F and low byte 1E decode to FX1E. For every register and state execution answers a
next state with I = (I + x[X]) mod 65536 and everything else unchanged, VF and every register among it. (The wrap is the
spec's decision D17.) [42_index_memory.md section 'FX1E add to I', 92_eei_decisions.md D17] -/
def Obligations.AddToAddressRegisterWrapsWithoutFlag : Prop :=
  DecodesXF 0xF 0x1E .addI ∧
  ∀ (x : Reg) (s : State), ∃ t, exec (.addI x) s = .next t ∧
    t.I.toNat = (s.I.toNat + (s.reg x).toNat) % 65536 ∧ SameBut [.I] s t

/-- Exactly the words with leading nibble F and low byte 29 decode to FX29. For every state execution answers a next state
with I = 5 times the low nibble of x[X] and everything else unchanged; and in the state after reset with any font image,
the five bytes from that address are the glyph's bytes of the image. (Base, stride, layout and the use of the low nibble
are the spec's decision D14.) [42_index_memory.md sections on FX29 and FX33 (the font layout), 10_state.md section 11,
92_eei_decisions.md D14] -/
def Obligations.FontAddressPointsAtTheGlyphBytes : Prop :=
  DecodesXF 0xF 0x29 .ldF ∧
  ∀ (x : Reg) (s : State), ∃ t, exec (.ldF x) s = .next t ∧ t.I.toNat = 5 * ((s.reg x).toNat % 16) ∧ SameBut [.I] s t ∧
    ∀ (font : Config.FontImage) (j : Nat), j < 5 →
      (State.resetWith font).mem.read (t.I.toNat + j) = font.toList.getD (5 * ((s.reg x).toNat % 16) + j) 0

/-- Exactly the words with leading nibble F and low byte 33 decode to FX33. For every state with canonical memory and I + 2
<= 0xFFF, execution answers a next state in which the bytes at I, I+1 and I+2 are digits of at most 2, 9 and 9 that make
up x[X], every byte of memory outside those three and everything else, I among it, is unchanged. With I + 2 > 0xFFF it
records MemoryBounds and changes nothing else. (Digit order and the all-or-nothing check are the spec's decisions D15
and D18.) [42_index_memory.md section 'FX33 binary-coded decimal', 92_eei_decisions.md D15, D18] -/
def Obligations.BcdStoresThreeDigits : Prop :=
  DecodesXF 0xF 0x33 .ldB ∧
  ∀ (x : Reg) (s : State),
    (s.mem.wf = true → s.I.toNat + 2 ≤ 0xFFF → ∃ t, exec (.ldB x) s = .next t ∧
      (s.reg x).toNat = 100 * (t.mem.read s.I.toNat).toNat + 10 * (t.mem.read (s.I.toNat + 1)).toNat +
        (t.mem.read (s.I.toNat + 2)).toNat ∧
      (t.mem.read s.I.toNat).toNat ≤ 2 ∧ (t.mem.read (s.I.toNat + 1)).toNat ≤ 9 ∧
      (t.mem.read (s.I.toNat + 2)).toNat ≤ 9 ∧ MemSameOutside s.I.toNat 3 s t ∧ SameBut [.mem] s t) ∧
    (0xFFF < s.I.toNat + 2 → ∃ t, exec (.ldB x) s = .next t ∧
      t.fault = some ⟨.memoryBounds, s.pc - 2, some (encode (.ldB x))⟩ ∧ SameBut [.fault] s t)

/-- Exactly the words with leading nibble F and low byte 55 decode to FX55. For every state with canonical memory and I + X
<= 0xFFF, execution answers a next state in which the byte at I + k is x[k] for each k from 0 to X, every byte of memory
outside that block and everything else, I among it, is unchanged. With I + X > 0xFFF it records MemoryBounds and changes
nothing else. (The unchanged I and the all-or-nothing check are the spec's decisions D16 and D18.) [42_index_memory.md
section 'FX55 store registers', 92_eei_decisions.md D16, D18] -/
def Obligations.StoreRegistersWritesTheBlockAtI : Prop :=
  DecodesXF 0xF 0x55 .storeRegs ∧
  ∀ (x : Reg) (s : State),
    (s.mem.wf = true → s.I.toNat + x.val ≤ 0xFFF → ∃ t, exec (.storeRegs x) s = .next t ∧
      (∀ k : Reg, k ≤ x → t.mem.read (s.I.toNat + k.val) = s.reg k) ∧
      MemSameOutside s.I.toNat (x.val + 1) s t ∧ SameBut [.mem] s t) ∧
    (0xFFF < s.I.toNat + x.val → ∃ t, exec (.storeRegs x) s = .next t ∧
      t.fault = some ⟨.memoryBounds, s.pc - 2, some (encode (.storeRegs x))⟩ ∧ SameBut [.fault] s t)

/-- Exactly the words with leading nibble F and low byte 65 decode to FX65. For every state with I + X <= 0xFFF, execution
answers a next state in which x[k] is the byte at I + k for each k from 0 to X, every register above X, memory and
everything else, I among it, is unchanged. With I + X > 0xFFF it records MemoryBounds and writes no register. (The
unchanged I and the all-or-nothing check are the spec's decisions D16 and D18.) [42_index_memory.md section 'FX65 load
registers', 92_eei_decisions.md D16, D18] -/
def Obligations.LoadRegistersReadsTheBlockAtI : Prop :=
  DecodesXF 0xF 0x65 .loadRegs ∧
  ∀ (x : Reg) (s : State),
    (s.I.toNat + x.val ≤ 0xFFF → ∃ t, exec (.loadRegs x) s = .next t ∧
      (∀ k : Reg, k ≤ x → t.reg k = s.mem.read (s.I.toNat + k.val)) ∧ (∀ k : Reg, x < k → t.reg k = s.reg k) ∧
      SameBut [.x] s t) ∧
    (0xFFF < s.I.toNat + x.val → ∃ t, exec (.loadRegs x) s = .next t ∧
      t.fault = some ⟨.memoryBounds, s.pc - 2, some (encode (.loadRegs x))⟩ ∧ SameBut [.fault] s t)

/-- For every state with canonical memory: if FX55's block covers pc and pc + 1 (pc already past FX55), the word fetched
next is the two registers stored there; if FX33 stores its hundreds and tens at pc and pc + 1, the word fetched next is
those two digits. [20_memory.md section 6, 70_reset_and_hazards.md section 3] -/
def Obligations.StoredBytesAreFetchedByTheNextStep : Prop :=
  ∀ (x : Reg) (s : State), s.mem.wf = true →
    (∀ k k' : Reg, k'.val = k.val + 1 → k' ≤ x → s.I.toNat + x.val ≤ 0xFFF → s.pc.toNat = s.I.toNat + k.val →
      ∃ t, exec (.storeRegs x) s = .next t ∧ t.fetchWord = some (wordOf (s.reg k) (s.reg k'))) ∧
    (s.I.toNat + 2 ≤ 0xFFF → s.pc.toNat = s.I.toNat →
      ∃ t, exec (.ldB x) s = .next t ∧
        t.fetchWord = some (BitVec.ofNat 16 ((s.reg x).toNat / 100 * 0x100 + (s.reg x).toNat / 10 % 10)))

/-- Exactly the words with leading nibble D decode to DXYN with their X, Y and N. With N = 0 or I + N - 1 <= 0xFFF, and the
origin x[X] mod 64, x[Y] mod 32 taken before anything is written (VF as an operand included), execution answers a next
state in which each cell that a set bit of the N sprite bytes at I covers, columns and rows counted from the origin with
wrap and the most significant bit first, is inverted, every other cell is unchanged, VF is 1 if a covered cell was lit
and 0 otherwise, and every other register and everything else is unchanged. Otherwise it records MemoryBounds and
changes nothing else. (The check and N = 0 are the spec's decisions D18 and D28.) [43_display.md sections 'The display
compositor' and 'DXYN draw sprite', 92_eei_decisions.md D18, D28] -/
def Obligations.DrawFlipsExactlyTheSpriteCells : Prop :=
  (∀ (w : Word) (x y : Reg) (n : Fin 16), decodeWord w = .ok (.drw x y n) ↔
    bits w 15 12 = 0xD ∧ bits w 11 8 = x.val ∧ bits w 7 4 = y.val ∧ bits w 3 0 = n.val) ∧
  ∀ (x y : Reg) (n : Fin 16) (s : State),
    ((n = 0 ∨ s.I.toNat + n.val - 1 ≤ 0xFFF) → ∃ t, exec (.drw x y n) s = .next t ∧
      (∀ py px, (spriteCovers s n.val ((s.reg x).toNat % 64) ((s.reg y).toNat % 32) py px →
          pixel t.disp py px = !pixel s.disp py px) ∧
        (¬ spriteCovers s n.val ((s.reg x).toNat % 64) ((s.reg y).toNat % 32) py px →
          pixel t.disp py px = pixel s.disp py px)) ∧
      ((∃ py px, spriteCovers s n.val ((s.reg x).toNat % 64) ((s.reg y).toNat % 32) py px ∧ pixel s.disp py px = true) →
        t.reg VF = 1) ∧
      ((¬ ∃ py px, spriteCovers s n.val ((s.reg x).toNat % 64) ((s.reg y).toNat % 32) py px ∧ pixel s.disp py px = true) →
        t.reg VF = 0) ∧
      RegsSameBut [VF] s t ∧ SameBut [.x, .disp] s t) ∧
    (n ≠ 0 → 0xFFF < s.I.toNat + n.val - 1 → ∃ t, exec (.drw x y n) s = .next t ∧
      t.fault = some ⟨.memoryBounds, s.pc - 2, some (encode (.drw x y n))⟩ ∧ SameBut [.fault] s t)

/-- For every state and any two DXYN of one N in range whose register operands give one origin, the second executed on the
state the first leaves: both complete, the display after the second is the display before the first, and nothing but VF
has changed. VF after the second is 1 if the sprite covers a cell that was unlit before the first draw (the first draw
lit it), and 0 otherwise, an all-zero sprite included. (The spec's derived sentence gives VF = 1 for any sprite with a
set bit; by the compositor's rules that holds where the first draw lit a cell, as on a blank display: log entry 16.)
[43_display.md sections 'The display compositor' and 'Derived properties', 90_conflicts.md C6] -/
def Obligations.SpriteDrawnTwiceRestoresTheDisplay : Prop :=
  ∀ (x y x' y' : Reg) (n : Fin 16) (s : State), (n = 0 ∨ s.I.toNat + n.val - 1 ≤ 0xFFF) →
    ∃ t, exec (.drw x y n) s = .next t ∧
      ((t.reg x').toNat % 64 = (s.reg x).toNat % 64 → (t.reg y').toNat % 32 = (s.reg y).toNat % 32 →
        ∃ u, exec (.drw x' y' n) t = .next u ∧ u.disp = s.disp ∧ RegsSameBut [VF] s u ∧ SameBut [.x] s u ∧
          ((∃ py px, spriteCovers s n.val ((s.reg x).toNat % 64) ((s.reg y).toNat % 32) py px ∧
            pixel s.disp py px = false) → u.reg VF = 1) ∧
          ((∀ py px, spriteCovers s n.val ((s.reg x).toNat % 64) ((s.reg y).toNat % 32) py px →
            pixel s.disp py px = true) → u.reg VF = 0))

/-- Exactly the words with leading nibble E and low byte 9E (A1) decode to EX9E (EXA1). For every register and state, with k
the low nibble of x[X], execution answers a next state in which pc is 2 further if key k is pressed (EX9E) or not
pressed (EXA1), and nothing else has changed. (The low nibble is the spec's decision D22.) [44_keys_timers.md section
'EX9E and EXA1 key skips', 92_eei_decisions.md D22] -/
def Obligations.KeySkipsTestTheKeyOfTheLowNibble : Prop :=
  DecodesXF 0xE 0x9E .skp ∧ DecodesXF 0xE 0xA1 .sknp ∧
  ∀ (x : Reg) (k : Fin 16) (s : State), k.val = (s.reg x).toNat % 16 →
    (∃ t, exec (.skp x) s = .next t ∧ t.pc = (if s.key[k.val] = true then s.pc + 2 else s.pc) ∧ SameBut [.pc] s t) ∧
    (∃ t, exec (.sknp x) s = .next t ∧ t.pc = (if s.key[k.val] = true then s.pc else s.pc + 2) ∧ SameBut [.pc] s t)

/-- Exactly the words with leading nibble F and low byte 07 decode to FX07. For every register, VF included, execution
answers a next state with x[X] = DT, every other register and everything else, DT among it, unchanged. After k Ticks it
reads max(0, DT - k). FX15 from any register, then k Ticks, then FX07 reads max(0, the value written - k): the value
written itself with no Tick, and a smaller one with a Tick between unless the value written is 0. [R113] -/
def Obligations.ReadDelayTimerCopiesDT : Prop :=
  DecodesXF 0xF 0x07 .ldVxDT ∧
  ∀ (x : Reg) (s : State),
    (∃ t, exec (.ldVxDT x) s = .next t ∧ t.reg x = s.DT ∧ RegsSameBut [x] s t ∧ SameBut [.x] s t) ∧
    ∀ (font : Config.FontImage) (k : Nat),
      (∃ t, exec (.ldVxDT x) (runSchedule font (List.replicate k .tick) s) = .next t ∧
        (t.reg x).toNat = s.DT.toNat - k) ∧
      ∀ y : Reg, ∃ t u, exec (.ldDTVx y) s = .next t ∧
        exec (.ldVxDT x) (runSchedule font (List.replicate k .tick) t) = .next u ∧
        (u.reg x).toNat = (s.reg y).toNat - k ∧
        (0 < k → s.reg y ≠ 0 → (u.reg x).toNat < (s.reg y).toNat)

/-- Exactly the words with leading nibble F and low byte 15 (18) decode to FX15 (FX18). For every register and state, FX15
answers a next state with DT = x[X] and FX18 one with ST = x[X], everything else unchanged; writing 0 to DT leaves it at
0 through every later Tick. ReadStatus shows the written ST to the host, and no instruction reads it: whatever value ST
holds before any instruction, everything but ST is the same after it. [R116, R117] -/
def Obligations.SetTimersCopyVx : Prop :=
  DecodesXF 0xF 0x15 .ldDTVx ∧ DecodesXF 0xF 0x18 .ldSTVx ∧
  (∀ (i : Instr) (s : State) (v : Byte), ∃ t u, exec i s = .next t ∧ exec i (s.setST v) = .next u ∧ SameBut [.ST] t u) ∧
  ∀ (x : Reg) (s : State) (font : Config.FontImage),
    (∃ t, exec (.ldDTVx x) s = .next t ∧ t.DT = s.reg x ∧ SameBut [.DT] s t ∧
      (s.reg x = 0 → ∀ k : Nat, (runSchedule font (List.replicate k .tick) t).DT = 0)) ∧
    (∃ t, exec (.ldSTVx x) s = .next t ∧ t.ST = s.reg x ∧ SameBut [.ST] s t ∧
      (transact font .readStatus t).1 = .status (s.reg x) s.wait.isSome s.fault)

/-- Exactly the words with leading nibble F and low byte 0A decode to FX0A. For every state, whatever keys are held,
execution answers a next state with wait = X and everything else unchanged, pc already past FX0A; if no fault is
recorded, the Step on that state changes nothing and is a Hold. (The wait is the spec's decision D21.)
[44_keys_timers.md section 'FX0A wait for key', 92_eei_decisions.md D21] -/
def Obligations.WaitForKeyHoldsTheStream : Prop :=
  DecodesXF 0xF 0x0A .ldVxK ∧
  ∀ (x : Reg) (s : State), ∃ t, exec (.ldVxK x) s = .next t ∧ t.wait = some x ∧ SameBut [.wait] s t ∧
    (s.fault = none → step t = .next t ∧ t.hostStep = (.hold, t))

/-- For every key code k: if the core waits to fill register X, KeyPress(k) writes k to it, clears the wait and changes
nothing else, the keypad among it, and a second KeyPress changes nothing; if it does not wait, KeyPress changes nothing.
(Not queueing an early press is the spec's decision D21.) [44_keys_timers.md section 'FX0A wait for key',
60_exceptions.md section 4, 92_eei_decisions.md D21] -/
def Obligations.KeyPressFillsTheWaitingRegisterOnce : Prop :=
  ∀ (font : Config.FontImage) (k : Fin 16) (s : State),
    (∀ x, s.wait = some x → ∃ t, transact font (.keyPress k) s = (.unit, t) ∧ (t.reg x).toNat = k.val ∧ t.wait = none ∧
      RegsSameBut [x] s t ∧ SameBut [.x, .wait] s t ∧ ∀ j, transact font (.keyPress j) t = (.unit, t)) ∧
    (s.wait = none → transact font (.keyPress k) s = (.unit, s))

/-- A transaction that starts a wait for register X is a Step whose fetched word decodes to FX0A with that X. From every
state that waits for register X: after any schedule with no KeyPress and no Reset, the core still waits for X and
nothing has changed but the timers, the keypad (SetKey) and memory (Load); with no SetKey and no Load either, nothing
but the timers. The timers keep ticking: each is max(0, its value - the number of Ticks in the schedule). A KeyPress(k)
on such a state wakes it, writing only x[X] and the wait; a Reset wakes it. [R140] -/
def Obligations.WaitEndsOnlyByKeyPressOrReset : Prop :=
  (∀ (font : Config.FontImage) (t : Transaction) (s : State) (x : Reg), s.wait = none →
    (transact font t s).2.wait = some x → t = .step ∧ ∃ w, s.fetchWord = some w ∧ decodeWord w = .ok (.ldVxK x)) ∧
  ∀ (font : Config.FontImage) (ts : List Transaction) (s : State) (x : Reg), s.wait = some x →
    (∀ t ∈ ts, t ≠ .reset ∧ ∀ k, t ≠ .keyPress k) →
    (runSchedule font ts s).wait = some x ∧
    (runSchedule font ts s).DT.toNat = s.DT.toNat - ts.count .tick ∧
    (runSchedule font ts s).ST.toNat = s.ST.toNat - ts.count .tick ∧
    SameBut [.DT, .ST, .key, .mem] s (runSchedule font ts s) ∧
    ((∀ t ∈ ts, (∀ k p, t ≠ .setKey k p) ∧ ∀ image, t ≠ .load image) → SameBut [.DT, .ST] s (runSchedule font ts s)) ∧
    (∀ k : Fin 16, (transact font (.keyPress k) (runSchedule font ts s)).2.wait = none ∧
      ((transact font (.keyPress k) (runSchedule font ts s)).2.reg x).toNat = k.val ∧
      RegsSameBut [x] s (transact font (.keyPress k) (runSchedule font ts s)).2 ∧
      SameBut [.DT, .ST, .key, .mem, .x, .wait] s (transact font (.keyPress k) (runSchedule font ts s)).2) ∧
    (transact font .reset (runSchedule font ts s)).2.wait = none

/-- From every state with a recorded fault and no wait: after any schedule with no Reset the same record stands, nothing has
changed but the timers, the keypad and memory (which Tick, SetKey and Load write), and a Step answers that record. Reset
clears it. (The sticky fault is the spec's decision D6.) [60_exceptions.md section 3, 10_state.md section 10,
92_eei_decisions.md D6, D36] -/
def Obligations.RecordedFaultStaysUntilReset : Prop :=
  ∀ (font : Config.FontImage) (ts : List Transaction) (s : State) (r : FaultRecord), s.fault = some r → s.wait = none →
    (∀ t ∈ ts, t ≠ .reset) →
    (runSchedule font ts s).fault = some r ∧ SameBut [.DT, .ST, .key, .mem] s (runSchedule font ts s) ∧
    step (runSchedule font ts s) = .fault (.recorded r) ∧ (transact font .reset (runSchedule font ts s)).2.fault = none

/-- For every state, waiting, faulted or running, and every k: after k Ticks with nothing between, DT is max(0, DT - k), ST
is max(0, ST - k), and everything else is unchanged. (That a Tick applies whatever the status is the spec's decision
D36.) [60_exceptions.md section 6, 92_eei_decisions.md D36] -/
def Obligations.TicksCountTimersDownToZero : Prop :=
  ∀ (font : Config.FontImage) (k : Nat) (s : State),
    (runSchedule font (List.replicate k .tick) s).DT.toNat = s.DT.toNat - k ∧
    (runSchedule font (List.replicate k .tick) s).ST.toNat = s.ST.toNat - k ∧
    SameBut [.DT, .ST] s (runSchedule font (List.replicate k .tick) s)

/-- For every state with canonical memory and every image of at most 0xE00 bytes, the empty one included: Load answers Ok,
byte k of the image stands at 0x200 + k, every other byte of memory and everything else is unchanged, and memory is
canonical. A longer image answers ImageTooLarge (code 5), an unavailable one SourceUnavailable (code 6), and nothing
changes. (The all-or-nothing load is the spec's decision D25, the codes D3.) [70_reset_and_hazards.md section 2,
92_eei_decisions.md D25] -/
def Obligations.LoadWritesTheImageOrNothing : Prop :=
  ∀ (font : Config.FontImage) (s : State),
    (∀ bs : List Byte, s.mem.wf = true → bs.length ≤ 0xE00 → ∃ t, transact font (.load (.bytes bs)) s = (.ok, t) ∧
      (∀ k, k < bs.length → t.mem.read (0x200 + k) = bs.getD k 0) ∧ MemSameOutside 0x200 bs.length s t ∧
      SameBut [.mem] s t ∧ t.mem.wf = true) ∧
    (∀ bs : List Byte, 0xE00 < bs.length → transact font (.load (.bytes bs)) s = (.imageTooLarge, s)) ∧
    transact font (.load .unavailable) s = (.sourceUnavailable, s) ∧
    Reply.imageTooLarge.code = some 5 ∧ Reply.sourceUnavailable.code = some 6

/-- For every font image and every state, Reset answers a state with pc = 0x200, every register, I, the stack, sp, the
timers, the keys and the display 0, wait and fault none, mem[0..79] the font image and every other byte 0; with the
default image every byte is 0. The initial state of the machine has these values too. The Reset transaction leaves the
random source, which is the host's, as it was (the model's reading, log entry 7). (The font area, wait, fault and reset
at any time are the spec's decisions D14, D21, D6 and D35.) [70_reset_and_hazards.md section 1, 10_state.md section 11,
92_eei_decisions.md D6, D14, D21, D35] -/
def Obligations.ResetGivesEveryElementItsResetValue : Prop :=
  ∀ (font : Config.FontImage) (s t : State), (transact font .reset s = (.unit, t) ∨ t = State.resetWith font) →
    t.pc = 0x200 ∧ (∀ r : Reg, t.reg r = 0) ∧ t.I = 0 ∧ (∀ k : Fin 16, t.stack[k.val] = 0) ∧ t.sp = 0 ∧ t.DT = 0 ∧ t.ST = 0 ∧
    (∀ k : Fin 16, t.key[k.val] = false) ∧ (∀ y x, pixel t.disp y x = false) ∧ t.wait = none ∧ t.fault = none ∧
    (∀ a : Nat, t.mem.read a = if a < 80 then font.toList.getD a 0 else 0) ∧
    (font = Config.defaultFont → ∀ a : Nat, t.mem.read a = 0) ∧
    (transact font .reset s).1 = .unit ∧
    (transact font .reset s = (.unit, t) → t.injected = s.injected ∧ t.drawCount = s.drawCount)

/-- For every state with canonical memory and every instruction: placing the instruction's word gives a state whose Step is
the execution of that instruction with pc advanced by 2; pc is the old one where a word can be fetched from it and 0x200
otherwise; nothing but the two bytes at pc, pc, wait and fault has changed; and the decoder reads the instruction from
the word as the table numbers its bits. (How a program comes to be placed is the model's convention, log entry 6.)
[30_encoding.md section 7, 20_memory.md section 2] -/
def Obligations.PlacedWordIsWhatTheNextStepRuns : Prop :=
  ∀ (s : State) (i : Instr), s.mem.wf = true → ∃ u, s.withFetchWord 16 (encode i).toNat = u ∧
    step u = exec i (u.setPc (u.pc + 2)) ∧ u.pc = (if s.pc.toNat ≤ 0xFFE then s.pc else 0x200) ∧
    SameBut [.mem, .pc, .wait, .fault] s u ∧ MemSameOutside u.pc.toNat 2 s u ∧
    decodeTableWord 16 (encode i).toNat = some i
end

