-- ==== Sys2Proof/Laws/Decode.lean ====
section
/-! SUPPORT. Laws/Decode.lean: the fields of a word written in one of the shapes of R53, and the bytes of a word. -/

namespace Sys2Proof

theorem toNat_wordA {op : Nat} (h : op < 16) (nnn : Addr12) : (wordA op nnn).toNat = op * 0x1000 + nnn.toNat := by
  have := nnn.isLt
  simp only [wordA, BitVec.toNat_ofNat]
  omega

theorem toNat_wordXK {op : Nat} (h : op < 16) (x : Reg) (nn : Byte) :
    (wordXK op x nn).toNat = op * 0x1000 + x.val * 0x100 + nn.toNat := by
  have := nn.isLt
  have := x.isLt
  simp only [wordXK, BitVec.toNat_ofNat]
  omega

theorem toNat_wordXY {op n : Nat} (h : op < 16) (hn : n < 16) (x y : Reg) :
    (wordXY op x y n).toNat = op * 0x1000 + x.val * 0x100 + y.val * 0x10 + n := by
  have := x.isLt
  have := y.isLt
  simp only [wordXY, BitVec.toNat_ofNat]
  omega

theorem toNat_wordXF {op low : Nat} (h : op < 16) (hl : low < 256) (x : Reg) :
    (wordXF op x low).toNat = op * 0x1000 + x.val * 0x100 + low := by
  have := x.isLt
  simp only [wordXF, BitVec.toNat_ofNat]
  omega

/-- The leading nibble and the address of a word of shape A. -/
theorem fields_wordA {op : Nat} (h : op < 16) (nnn : Addr12) :
    (fields (wordA op nnn)).op = op ∧ (fields (wordA op nnn)).NNN = nnn := by
  have := nnn.isLt
  refine ⟨?_, BitVec.eq_of_toNat_eq ?_⟩ <;>
    simp only [fields, bits, toNat_wordA h, BitVec.toNat_ofNat] <;> omega

/-- The leading nibble, the register and the byte of a word of shape XK. -/
theorem fields_wordXK {op : Nat} (h : op < 16) (x : Reg) (nn : Byte) :
    (fields (wordXK op x nn)).op = op ∧ (fields (wordXK op x nn)).X = x ∧ (fields (wordXK op x nn)).NN = nn := by
  have := nn.isLt
  have := x.isLt
  refine ⟨?_, Fin.ext ?_, BitVec.eq_of_toNat_eq ?_⟩ <;>
    simp only [fields, nibbleAt, bits, toNat_wordXK h, BitVec.toNat_ofNat] <;> omega

/-- The four nibbles of a word of shape XY or XYN. -/
theorem fields_wordXY {op n : Nat} (h : op < 16) (hn : n < 16) (x y : Reg) :
    (fields (wordXY op x y n)).op = op ∧ (fields (wordXY op x y n)).X = x ∧ (fields (wordXY op x y n)).Y = y ∧
      (fields (wordXY op x y n)).N.val = n := by
  have := x.isLt
  have := y.isLt
  refine ⟨?_, Fin.ext ?_, Fin.ext ?_, ?_⟩ <;>
    simp only [fields, nibbleAt, bits, toNat_wordXY h hn] <;> omega

/-- The leading nibble, the register and the low byte of a word of shape XF. -/
theorem fields_wordXF {op low : Nat} (h : op < 16) (hl : low < 256) (x : Reg) :
    (fields (wordXF op x low)).op = op ∧ (fields (wordXF op x low)).X = x ∧
      (fields (wordXF op x low)).NN.toNat = low := by
  have := x.isLt
  refine ⟨?_, Fin.ext ?_, ?_⟩ <;>
    simp only [fields, nibbleAt, bits, toNat_wordXF h hl, BitVec.toNat_ofNat] <;> omega

/-- A word is its four nibbles (R52). -/
theorem toNat_nibbles (w : Word) :
    w.toNat = bits w 15 12 * 0x1000 + bits w 11 8 * 0x100 + bits w 7 4 * 0x10 + bits w 3 0 := by
  have := w.isLt
  simp only [bits]
  omega

/-- NN is the low two nibbles (R52). -/
theorem bits_7_0 (w : Word) : bits w 7 0 = bits w 7 4 * 0x10 + bits w 3 0 := by
  simp only [bits]
  omega

/-- NNN is the low three nibbles (R52). -/
theorem bits_11_0 (w : Word) : bits w 11 0 = bits w 11 8 * 0x100 + bits w 7 4 * 0x10 + bits w 3 0 := by
  simp only [bits]
  omega

theorem bits_15_12_lt (w : Word) : bits w 15 12 < 16 := Nat.mod_lt _ (by decide)

theorem bits_11_8_lt (w : Word) : bits w 11 8 < 16 := Nat.mod_lt _ (by decide)

theorem bits_7_4_lt (w : Word) : bits w 7 4 < 16 := Nat.mod_lt _ (by decide)

theorem bits_3_0_lt (w : Word) : bits w 3 0 < 16 := Nat.mod_lt _ (by decide)

theorem fields_op (w : Word) : (fields w).op = bits w 15 12 := rfl

theorem fields_X (w : Word) : (fields w).X.val = bits w 11 8 := Nat.mod_eq_of_lt (bits_11_8_lt w)

theorem fields_Y (w : Word) : (fields w).Y.val = bits w 7 4 := Nat.mod_eq_of_lt (bits_7_4_lt w)

theorem fields_N (w : Word) : (fields w).N.val = bits w 3 0 := Nat.mod_eq_of_lt (bits_3_0_lt w)

theorem fields_NN (w : Word) : (fields w).NN.toNat = bits w 7 0 := by
  rw [fields, BitVec.toNat_ofNat]
  exact Nat.mod_eq_of_lt (Nat.mod_lt _ (by decide))

theorem fields_NNN (w : Word) : (fields w).NNN.toNat = bits w 11 0 := by
  rw [fields, BitVec.toNat_ofNat]
  exact Nat.mod_eq_of_lt (Nat.mod_lt _ (by decide))

theorem decodeWord_ok_iff {w : Word} {i : Instr} : decodeWord w = .ok i ↔ select (fields w) = some i := by
  rw [decodeWord]
  cases select (fields w) <;> simp

theorem decodeWord_error_iff {w : Word} : decodeWord w = .error (.unknownOpcode w) ↔ select (fields w) = none := by
  rw [decodeWord]
  cases select (fields w) <;> simp

/-- Exactly the words of shape A with leading nibble `op`, and their NNN. -/
theorem eq_wordA_iff {op : Nat} (h : op < 16) {w : Word} {nnn : Addr12} :
    w = wordA op nnn ↔ bits w 15 12 = op ∧ bits w 11 0 = nnn.toNat := by
  constructor
  · rintro rfl
    rw [← fields_op, ← fields_NNN, (fields_wordA h nnn).1, (fields_wordA h nnn).2]
    exact ⟨rfl, rfl⟩
  · rintro ⟨h1, h2⟩
    apply BitVec.eq_of_toNat_eq
    rw [toNat_wordA h, toNat_nibbles w, h1, ← h2, bits_11_0]
    ring

/-- Exactly the words of shape XK with leading nibble `op`, their X and NN. -/
theorem eq_wordXK_iff {op : Nat} (h : op < 16) {w : Word} {x : Reg} {nn : Byte} :
    w = wordXK op x nn ↔ bits w 15 12 = op ∧ bits w 11 8 = x.val ∧ bits w 7 0 = nn.toNat := by
  constructor
  · rintro rfl
    obtain ⟨h1, h2, h3⟩ := fields_wordXK h x nn
    rw [← fields_op, ← fields_X, ← fields_NN, h1, h2, h3]
    exact ⟨rfl, rfl, rfl⟩
  · rintro ⟨h1, h2, h3⟩
    apply BitVec.eq_of_toNat_eq
    rw [toNat_wordXK h, toNat_nibbles w, h1, h2, ← h3, bits_7_0]
    ring

/-- Exactly the words of shape XY or XYN with leading nibble `op`, their X, Y and fourth nibble. -/
theorem eq_wordXY_iff {op n : Nat} (h : op < 16) (hn : n < 16) {w : Word} {x y : Reg} :
    w = wordXY op x y n ↔ bits w 15 12 = op ∧ bits w 3 0 = n ∧ bits w 11 8 = x.val ∧ bits w 7 4 = y.val := by
  constructor
  · rintro rfl
    obtain ⟨h1, h2, h3, h4⟩ := fields_wordXY h hn x y
    rw [← fields_op, ← fields_X, ← fields_Y, ← fields_N, h1, h2, h3, h4]
    exact ⟨rfl, rfl, rfl, rfl⟩
  · rintro ⟨h1, h2, h3, h4⟩
    apply BitVec.eq_of_toNat_eq
    rw [toNat_wordXY h hn, toNat_nibbles w, h1, h2, h3, h4]

/-- Exactly the words of shape XF with leading nibble `op` and their X and low byte. -/
theorem eq_wordXF_iff {op low : Nat} (h : op < 16) (hl : low < 256) {w : Word} {x : Reg} :
    w = wordXF op x low ↔ bits w 15 12 = op ∧ bits w 7 0 = low ∧ bits w 11 8 = x.val := by
  constructor
  · rintro rfl
    obtain ⟨h1, h2, h3⟩ := fields_wordXF h hl x
    rw [← fields_op, ← fields_X, ← fields_NN, h1, h2, h3]
    exact ⟨rfl, rfl, rfl⟩
  · rintro ⟨h1, h2, h3⟩
    apply BitVec.eq_of_toNat_eq
    rw [toNat_wordXF h hl, toNat_nibbles w, h1, h3, ← h2, bits_7_0]
    ring

/-- The word of two bytes as a number. -/
theorem toNat_wordOf (a b : Byte) : (wordOf a b).toNat = a.toNat * 0x100 + b.toNat := by
  have := b.isLt
  rw [wordOf, BitVec.toNat_append, Nat.shiftLeft_eq, ← Nat.shiftLeft_eq, ← Nat.shiftLeft_add_eq_or_of_lt this,
    Nat.shiftLeft_eq]

/-- A word's two bytes make the word again (R38). -/
theorem wordOf_wordBytes (w : Word) : wordOf (BitVec.ofNat 8 (bits w 15 8)) (BitVec.ofNat 8 (bits w 7 0)) = w := by
  have := w.isLt
  apply BitVec.eq_of_toNat_eq
  simp only [toNat_wordOf, bits, BitVec.toNat_ofNat]
  omega

/-- Decoding a word's bytes decodes the word, and leaves the bytes after it. -/
theorem decodeBytes_wordBytes (w : Word) (rest : List Byte) :
    decodeBytes (wordBytes w ++ rest) = (decodeWord w).map fun i => (i, rest) := by
  simp only [wordBytes, List.cons_append, List.nil_append, decodeBytes, wordOf_wordBytes]
  cases decodeWord w <;> rfl

end Sys2Proof
end

