-- ==== Sys2Proof/Laws/Draw.lean ====
section
/-! SUPPORT. Laws/Draw.lean: what the sprite compositor does to each cell and to the collision latch. -/

namespace Sys2Proof.Machine

theorem pixel_setPixel (d : Display) (y y' : Fin 32) (x x' : Fin 64) (b : Bool) :
    pixel (setPixel d y x b) y' x' = if y' = y ∧ x' = x then b else pixel d y' x' := by
  simp only [pixel, setPixel, Vector.getElem_set, Fin.ext_iff]
  by_cases hy : y.val = y'.val
  · by_cases hx : x.val = x'.val
    · simp [hy, hx]
    · have hx' : ¬ x'.val = x.val := fun h => hx h.symm
      simp [hy, hx, hx']
  · have hy' : ¬ y'.val = y.val := fun h => hy h.symm
    simp [hy, hy']

/-- Two displays with the same cells are the same. -/
theorem display_ext {d e : Display} (h : ∀ y x, pixel d y x = pixel e y x) : d = e := by
  apply Vector.ext
  intro y hy
  apply Vector.ext
  intro x hx
  exact h ⟨y, hy⟩ ⟨x, hx⟩

@[simp] theorem pixel_blankDisplay (y : Fin 32) (x : Fin 64) : pixel blankDisplay y x = false := by
  simp [pixel, blankDisplay]

/-- The columns of a list of offsets cover the cell (y', x') with a set bit of `b`. -/
def columnsCover (b : Byte) (y : Fin 32) (x0 : Nat) (cs : List Nat) (y' : Fin 32) (x' : Fin 64) : Bool :=
  cs.any fun c => b.getLsbD (7 - c) && decide (y' = y ∧ x' = wrapX (x0 + c))

/-- The byte at row `y` covers the cell (y', x') with a set bit. -/
def byteCovers (b : Byte) (y : Fin 32) (x0 : Nat) (y' : Fin 32) (x' : Fin 64) : Bool :=
  columnsCover b y x0 (List.range 8) y' x'

theorem columnsCover_iff {b : Byte} {y y' : Fin 32} {x0 : Nat} {cs : List Nat} {x' : Fin 64} :
    columnsCover b y x0 cs y' x' = true ↔ ∃ c ∈ cs, b.getLsbD (7 - c) = true ∧ y' = y ∧ x' = wrapX (x0 + c) := by
  simp [columnsCover]

/-- Distinct columns of one sprite row fall on distinct cells, so none is touched twice (R108). -/
theorem draw_columns (b : Byte) (y : Fin 32) (x0 : Nat) (cs : List Nat) (hnd : cs.Nodup) (h8 : ∀ c ∈ cs, c < 8)
    (acc : Display × Bool) :
    let r := cs.foldl (fun acc c => if b.getLsbD (7 - c) then flipPixel acc y (wrapX (x0 + c)) else acc) acc
    (∀ y' x', pixel r.1 y' x' = (pixel acc.1 y' x' ^^ columnsCover b y x0 cs y' x')) ∧
      (r.2 = true ↔ acc.2 = true ∨ ∃ y' x', columnsCover b y x0 cs y' x' = true ∧ pixel acc.1 y' x' = true) := by
  induction cs generalizing acc with
  | nil => simp [columnsCover]
  | cons c cs ih =>
    obtain ⟨hc, hnd⟩ := List.nodup_cons.1 hnd
    have h8' : ∀ c ∈ cs, c < 8 := fun d hd => h8 d (List.mem_cons_of_mem _ hd)
    have hc8 := h8 c List.mem_cons_self
    have hfresh : columnsCover b y x0 cs y (wrapX (x0 + c)) = false := by
      rw [Bool.eq_false_iff]
      intro h
      obtain ⟨d, hd, -, -, hx⟩ := columnsCover_iff.1 h
      have := h8' d hd
      have hne : c ≠ d := fun e => hc (e ▸ hd)
      simp only [wrapX, Fin.mk.injEq] at hx
      omega
    have hcons : ∀ y' x', columnsCover b y x0 (c :: cs) y' x' =
        ((b.getLsbD (7 - c) && decide (y' = y ∧ x' = wrapX (x0 + c))) || columnsCover b y x0 cs y' x') := by
      intro y' x'; rfl
    have hbody := ih hnd h8' (if b.getLsbD (7 - c) then flipPixel acc y (wrapX (x0 + c)) else acc)
    simp only [List.foldl_cons] at hbody ⊢
    by_cases hb : b.getLsbD (7 - c) = true
    · rw [if_pos hb] at hbody ⊢
      obtain ⟨hp, hh⟩ := hbody
      refine ⟨fun y' x' => ?_, ?_⟩
      · rw [hp, hcons, flipPixel, pixel_setPixel, hb]
        by_cases hq : y' = y ∧ x' = wrapX (x0 + c)
        · obtain ⟨rfl, rfl⟩ := hq
          simp [hfresh]
        · simp [hq]
      · rw [hh]
        have hold : ∀ y' x', columnsCover b y x0 cs y' x' = true →
            pixel (flipPixel acc y (wrapX (x0 + c))).1 y' x' = pixel acc.1 y' x' := by
          intro y' x' hcov
          rw [flipPixel, pixel_setPixel, if_neg]
          rintro ⟨rfl, rfl⟩
          simp [hfresh] at hcov
        constructor
        · rintro (h | ⟨y', x', hcov, hpix⟩)
          · simp only [flipPixel, Bool.or_eq_true] at h
            rcases h with h | h
            · exact .inl h
            · exact .inr ⟨y, wrapX (x0 + c), by simp [hcons, hb], h⟩
          · exact .inr ⟨y', x', by simp [hcons, hcov], by rwa [hold y' x' hcov] at hpix⟩
        · rintro (h | ⟨y', x', hcov, hpix⟩)
          · exact .inl (by simp [flipPixel, h])
          · by_cases hcs : columnsCover b y x0 cs y' x' = true
            · exact .inr ⟨y', x', hcs, by rwa [hold y' x' hcs]⟩
            · rw [hcons, hb] at hcov
              simp only [hcs, Bool.true_and, Bool.or_false, decide_eq_true_eq] at hcov
              obtain ⟨rfl, rfl⟩ := hcov
              exact .inl (by simp [flipPixel, hpix])
    · rw [if_neg hb] at hbody ⊢
      simp only [Bool.not_eq_true] at hb
      simpa [hcons, hb] using hbody

/-- One sprite byte: each cell it covers is flipped, and the latch is set when one of them was lit (R105, R106). -/
theorem drawByte_spec (b : Byte) (y : Fin 32) (x0 : Nat) (acc : Display × Bool) :
    (∀ y' x', pixel (drawByte b y x0 acc).1 y' x' = (pixel acc.1 y' x' ^^ byteCovers b y x0 y' x')) ∧
      ((drawByte b y x0 acc).2 = true ↔
        acc.2 = true ∨ ∃ y' x', byteCovers b y x0 y' x' = true ∧ pixel acc.1 y' x' = true) :=
  draw_columns b y x0 (List.range 8) List.nodup_range (fun _ h => List.mem_range.1 h) acc

/-- The rows of a sprite cover the cell (y', x') with a set bit. -/
def rowsCover : List Byte → Nat → Nat → Fin 32 → Fin 64 → Bool
  | [], _, _, _, _ => false
  | b :: bs, y, x0, y', x' => byteCovers b (wrapY y) x0 y' x' || rowsCover bs (y + 1) x0 y' x'

theorem rowsCover_iff {bs : List Byte} {y x0 : Nat} {y' : Fin 32} {x' : Fin 64} :
    rowsCover bs y x0 y' x' = true ↔
      ∃ r c : Nat, r < bs.length ∧ c < 8 ∧ y'.val = (y + r) % 32 ∧ x'.val = (x0 + c) % 64 ∧
        (bs.getD r 0).getLsbD (7 - c) = true := by
  induction bs generalizing y with
  | nil => simp [rowsCover]
  | cons b bs ih =>
    rw [rowsCover, Bool.or_eq_true, ih, byteCovers, columnsCover_iff]
    constructor
    · rintro (⟨c, hc, hb, rfl, rfl⟩ | ⟨r, c, hr, hc, hy, hx, hb⟩)
      · exact ⟨0, c, by simp, List.mem_range.1 hc, by simp [wrapY], by simp [wrapX], by simpa using hb⟩
      · exact ⟨r + 1, c, by simpa using hr, hc, by rw [hy]; congr 1; omega, hx, by simpa using hb⟩
    · rintro ⟨r, c, hr, hc, hy, hx, hb⟩
      cases r with
      | zero =>
        exact .inl ⟨c, List.mem_range.2 hc, by simpa using hb, Fin.ext (by simpa [wrapY] using hy),
          Fin.ext (by simpa [wrapX] using hx)⟩
      | succ r =>
        exact .inr ⟨r, c, by simpa using hr, hc, by rw [hy]; congr 1; omega, hx, by simpa using hb⟩

/-- A whole sprite of at most 32 rows: each covered cell is flipped once, every other cell is unchanged, and the latch is set
exactly when a covered cell was lit (R105, R106). -/
theorem drawRows_spec (bs : List Byte) (y x0 : Nat) (hlen : bs.length ≤ 32) (acc : Display × Bool) :
    (∀ y' x', pixel (drawRows bs y x0 acc).1 y' x' = (pixel acc.1 y' x' ^^ rowsCover bs y x0 y' x')) ∧
      ((drawRows bs y x0 acc).2 = true ↔
        acc.2 = true ∨ ∃ y' x', rowsCover bs y x0 y' x' = true ∧ pixel acc.1 y' x' = true) := by
  induction bs generalizing y acc with
  | nil => simp [drawRows, rowsCover]
  | cons b bs ih =>
    simp only [List.length_cons] at hlen
    obtain ⟨hp, hh⟩ := ih (y + 1) (by omega) (drawByte b (wrapY y) x0 acc)
    obtain ⟨hp1, hh1⟩ := drawByte_spec b (wrapY y) x0 acc
    have hdisj : ∀ y' x', rowsCover bs (y + 1) x0 y' x' = true → byteCovers b (wrapY y) x0 y' x' = false := by
      intro y' x' h
      rw [Bool.eq_false_iff]
      intro hb
      obtain ⟨r, c, hr, -, hy, -, -⟩ := rowsCover_iff.1 h
      obtain ⟨c', -, -, rfl, -⟩ := columnsCover_iff.1 hb
      simp only [wrapY] at hy
      omega
    rw [drawRows]
    refine ⟨fun y' x' => ?_, ?_⟩
    · rw [hp, hp1, rowsCover]
      cases hr : rowsCover bs (y + 1) x0 y' x'
      · simp
      · simp [hdisj y' x' hr]
    · rw [hh, hh1]
      constructor
      · rintro ((h | ⟨y', x', hc, hpix⟩) | ⟨y', x', hc, hpix⟩)
        · exact .inl h
        · exact .inr ⟨y', x', by simp [rowsCover, hc], hpix⟩
        · exact .inr ⟨y', x', by simp [rowsCover, hc], by rw [hp1, hdisj y' x' hc] at hpix; simpa using hpix⟩
      · rintro (h | ⟨y', x', hc, hpix⟩)
        · exact .inl (.inl h)
        · cases hr : rowsCover bs (y + 1) x0 y' x'
          · rw [rowsCover, hr, Bool.or_false] at hc
            exact .inl (.inr ⟨y', x', hc, hpix⟩)
          · exact .inr ⟨y', x', hr, by rw [hp1, hdisj y' x' hr]; simpa using hpix⟩

end Sys2Proof.Machine
end

