-- ==== Sys2Proof/Laws/State.lean ====
section
/-! SUPPORT. Laws/State.lean: one lemma per field of State and per update. -/

namespace Sys2Proof.Machine

variable (s : State)

@[simp] theorem State.setMem_mem (m : Memory) : (s.setMem m).mem = m := rfl
@[simp] theorem State.setMem_x (m : Memory) : (s.setMem m).x = s.x := rfl
@[simp] theorem State.setMem_I (m : Memory) : (s.setMem m).I = s.I := rfl
@[simp] theorem State.setMem_pc (m : Memory) : (s.setMem m).pc = s.pc := rfl
@[simp] theorem State.setMem_stack (m : Memory) : (s.setMem m).stack = s.stack := rfl
@[simp] theorem State.setMem_sp (m : Memory) : (s.setMem m).sp = s.sp := rfl
@[simp] theorem State.setMem_DT (m : Memory) : (s.setMem m).DT = s.DT := rfl
@[simp] theorem State.setMem_ST (m : Memory) : (s.setMem m).ST = s.ST := rfl
@[simp] theorem State.setMem_key (m : Memory) : (s.setMem m).key = s.key := rfl
@[simp] theorem State.setMem_disp (m : Memory) : (s.setMem m).disp = s.disp := rfl
@[simp] theorem State.setMem_wait (m : Memory) : (s.setMem m).wait = s.wait := rfl
@[simp] theorem State.setMem_fault (m : Memory) : (s.setMem m).fault = s.fault := rfl
@[simp] theorem State.setMem_injected (m : Memory) : (s.setMem m).injected = s.injected := rfl
@[simp] theorem State.setMem_drawCount (m : Memory) : (s.setMem m).drawCount = s.drawCount := rfl

@[simp] theorem State.setI_mem (v : Word) : (s.setI v).mem = s.mem := rfl
@[simp] theorem State.setI_x (v : Word) : (s.setI v).x = s.x := rfl
@[simp] theorem State.setI_I (v : Word) : (s.setI v).I = v := rfl
@[simp] theorem State.setI_pc (v : Word) : (s.setI v).pc = s.pc := rfl
@[simp] theorem State.setI_stack (v : Word) : (s.setI v).stack = s.stack := rfl
@[simp] theorem State.setI_sp (v : Word) : (s.setI v).sp = s.sp := rfl
@[simp] theorem State.setI_DT (v : Word) : (s.setI v).DT = s.DT := rfl
@[simp] theorem State.setI_ST (v : Word) : (s.setI v).ST = s.ST := rfl
@[simp] theorem State.setI_key (v : Word) : (s.setI v).key = s.key := rfl
@[simp] theorem State.setI_disp (v : Word) : (s.setI v).disp = s.disp := rfl
@[simp] theorem State.setI_wait (v : Word) : (s.setI v).wait = s.wait := rfl
@[simp] theorem State.setI_fault (v : Word) : (s.setI v).fault = s.fault := rfl
@[simp] theorem State.setI_injected (v : Word) : (s.setI v).injected = s.injected := rfl
@[simp] theorem State.setI_drawCount (v : Word) : (s.setI v).drawCount = s.drawCount := rfl

@[simp] theorem State.setPc_mem (v : Word) : (s.setPc v).mem = s.mem := rfl
@[simp] theorem State.setPc_x (v : Word) : (s.setPc v).x = s.x := rfl
@[simp] theorem State.setPc_I (v : Word) : (s.setPc v).I = s.I := rfl
@[simp] theorem State.setPc_pc (v : Word) : (s.setPc v).pc = v := rfl
@[simp] theorem State.setPc_stack (v : Word) : (s.setPc v).stack = s.stack := rfl
@[simp] theorem State.setPc_sp (v : Word) : (s.setPc v).sp = s.sp := rfl
@[simp] theorem State.setPc_DT (v : Word) : (s.setPc v).DT = s.DT := rfl
@[simp] theorem State.setPc_ST (v : Word) : (s.setPc v).ST = s.ST := rfl
@[simp] theorem State.setPc_key (v : Word) : (s.setPc v).key = s.key := rfl
@[simp] theorem State.setPc_disp (v : Word) : (s.setPc v).disp = s.disp := rfl
@[simp] theorem State.setPc_wait (v : Word) : (s.setPc v).wait = s.wait := rfl
@[simp] theorem State.setPc_fault (v : Word) : (s.setPc v).fault = s.fault := rfl
@[simp] theorem State.setPc_injected (v : Word) : (s.setPc v).injected = s.injected := rfl
@[simp] theorem State.setPc_drawCount (v : Word) : (s.setPc v).drawCount = s.drawCount := rfl

@[simp] theorem State.setDT_mem (v : Byte) : (s.setDT v).mem = s.mem := rfl
@[simp] theorem State.setDT_x (v : Byte) : (s.setDT v).x = s.x := rfl
@[simp] theorem State.setDT_I (v : Byte) : (s.setDT v).I = s.I := rfl
@[simp] theorem State.setDT_pc (v : Byte) : (s.setDT v).pc = s.pc := rfl
@[simp] theorem State.setDT_stack (v : Byte) : (s.setDT v).stack = s.stack := rfl
@[simp] theorem State.setDT_sp (v : Byte) : (s.setDT v).sp = s.sp := rfl
@[simp] theorem State.setDT_DT (v : Byte) : (s.setDT v).DT = v := rfl
@[simp] theorem State.setDT_ST (v : Byte) : (s.setDT v).ST = s.ST := rfl
@[simp] theorem State.setDT_key (v : Byte) : (s.setDT v).key = s.key := rfl
@[simp] theorem State.setDT_disp (v : Byte) : (s.setDT v).disp = s.disp := rfl
@[simp] theorem State.setDT_wait (v : Byte) : (s.setDT v).wait = s.wait := rfl
@[simp] theorem State.setDT_fault (v : Byte) : (s.setDT v).fault = s.fault := rfl
@[simp] theorem State.setDT_injected (v : Byte) : (s.setDT v).injected = s.injected := rfl
@[simp] theorem State.setDT_drawCount (v : Byte) : (s.setDT v).drawCount = s.drawCount := rfl

@[simp] theorem State.setST_mem (v : Byte) : (s.setST v).mem = s.mem := rfl
@[simp] theorem State.setST_x (v : Byte) : (s.setST v).x = s.x := rfl
@[simp] theorem State.setST_I (v : Byte) : (s.setST v).I = s.I := rfl
@[simp] theorem State.setST_pc (v : Byte) : (s.setST v).pc = s.pc := rfl
@[simp] theorem State.setST_stack (v : Byte) : (s.setST v).stack = s.stack := rfl
@[simp] theorem State.setST_sp (v : Byte) : (s.setST v).sp = s.sp := rfl
@[simp] theorem State.setST_DT (v : Byte) : (s.setST v).DT = s.DT := rfl
@[simp] theorem State.setST_ST (v : Byte) : (s.setST v).ST = v := rfl
@[simp] theorem State.setST_key (v : Byte) : (s.setST v).key = s.key := rfl
@[simp] theorem State.setST_disp (v : Byte) : (s.setST v).disp = s.disp := rfl
@[simp] theorem State.setST_wait (v : Byte) : (s.setST v).wait = s.wait := rfl
@[simp] theorem State.setST_fault (v : Byte) : (s.setST v).fault = s.fault := rfl
@[simp] theorem State.setST_injected (v : Byte) : (s.setST v).injected = s.injected := rfl
@[simp] theorem State.setST_drawCount (v : Byte) : (s.setST v).drawCount = s.drawCount := rfl

@[simp] theorem State.setDisp_mem (d : Display) : (s.setDisp d).mem = s.mem := rfl
@[simp] theorem State.setDisp_x (d : Display) : (s.setDisp d).x = s.x := rfl
@[simp] theorem State.setDisp_I (d : Display) : (s.setDisp d).I = s.I := rfl
@[simp] theorem State.setDisp_pc (d : Display) : (s.setDisp d).pc = s.pc := rfl
@[simp] theorem State.setDisp_stack (d : Display) : (s.setDisp d).stack = s.stack := rfl
@[simp] theorem State.setDisp_sp (d : Display) : (s.setDisp d).sp = s.sp := rfl
@[simp] theorem State.setDisp_DT (d : Display) : (s.setDisp d).DT = s.DT := rfl
@[simp] theorem State.setDisp_ST (d : Display) : (s.setDisp d).ST = s.ST := rfl
@[simp] theorem State.setDisp_key (d : Display) : (s.setDisp d).key = s.key := rfl
@[simp] theorem State.setDisp_disp (d : Display) : (s.setDisp d).disp = d := rfl
@[simp] theorem State.setDisp_wait (d : Display) : (s.setDisp d).wait = s.wait := rfl
@[simp] theorem State.setDisp_fault (d : Display) : (s.setDisp d).fault = s.fault := rfl
@[simp] theorem State.setDisp_injected (d : Display) : (s.setDisp d).injected = s.injected := rfl
@[simp] theorem State.setDisp_drawCount (d : Display) : (s.setDisp d).drawCount = s.drawCount := rfl

@[simp] theorem State.setWait_mem (v : Option Reg) : (s.setWait v).mem = s.mem := rfl
@[simp] theorem State.setWait_x (v : Option Reg) : (s.setWait v).x = s.x := rfl
@[simp] theorem State.setWait_I (v : Option Reg) : (s.setWait v).I = s.I := rfl
@[simp] theorem State.setWait_pc (v : Option Reg) : (s.setWait v).pc = s.pc := rfl
@[simp] theorem State.setWait_stack (v : Option Reg) : (s.setWait v).stack = s.stack := rfl
@[simp] theorem State.setWait_sp (v : Option Reg) : (s.setWait v).sp = s.sp := rfl
@[simp] theorem State.setWait_DT (v : Option Reg) : (s.setWait v).DT = s.DT := rfl
@[simp] theorem State.setWait_ST (v : Option Reg) : (s.setWait v).ST = s.ST := rfl
@[simp] theorem State.setWait_key (v : Option Reg) : (s.setWait v).key = s.key := rfl
@[simp] theorem State.setWait_disp (v : Option Reg) : (s.setWait v).disp = s.disp := rfl
@[simp] theorem State.setWait_wait (v : Option Reg) : (s.setWait v).wait = v := rfl
@[simp] theorem State.setWait_fault (v : Option Reg) : (s.setWait v).fault = s.fault := rfl
@[simp] theorem State.setWait_injected (v : Option Reg) : (s.setWait v).injected = s.injected := rfl
@[simp] theorem State.setWait_drawCount (v : Option Reg) : (s.setWait v).drawCount = s.drawCount := rfl

@[simp] theorem State.setFault_mem (v : Option FaultRecord) : (s.setFault v).mem = s.mem := rfl
@[simp] theorem State.setFault_x (v : Option FaultRecord) : (s.setFault v).x = s.x := rfl
@[simp] theorem State.setFault_I (v : Option FaultRecord) : (s.setFault v).I = s.I := rfl
@[simp] theorem State.setFault_pc (v : Option FaultRecord) : (s.setFault v).pc = s.pc := rfl
@[simp] theorem State.setFault_stack (v : Option FaultRecord) : (s.setFault v).stack = s.stack := rfl
@[simp] theorem State.setFault_sp (v : Option FaultRecord) : (s.setFault v).sp = s.sp := rfl
@[simp] theorem State.setFault_DT (v : Option FaultRecord) : (s.setFault v).DT = s.DT := rfl
@[simp] theorem State.setFault_ST (v : Option FaultRecord) : (s.setFault v).ST = s.ST := rfl
@[simp] theorem State.setFault_key (v : Option FaultRecord) : (s.setFault v).key = s.key := rfl
@[simp] theorem State.setFault_disp (v : Option FaultRecord) : (s.setFault v).disp = s.disp := rfl
@[simp] theorem State.setFault_wait (v : Option FaultRecord) : (s.setFault v).wait = s.wait := rfl
@[simp] theorem State.setFault_fault (v : Option FaultRecord) : (s.setFault v).fault = v := rfl
@[simp] theorem State.setFault_injected (v : Option FaultRecord) : (s.setFault v).injected = s.injected := rfl
@[simp] theorem State.setFault_drawCount (v : Option FaultRecord) : (s.setFault v).drawCount = s.drawCount := rfl

@[simp] theorem State.setKey_mem (k : Fin 16) (p : Bool) : (s.setKey k p).mem = s.mem := rfl
@[simp] theorem State.setKey_x (k : Fin 16) (p : Bool) : (s.setKey k p).x = s.x := rfl
@[simp] theorem State.setKey_I (k : Fin 16) (p : Bool) : (s.setKey k p).I = s.I := rfl
@[simp] theorem State.setKey_pc (k : Fin 16) (p : Bool) : (s.setKey k p).pc = s.pc := rfl
@[simp] theorem State.setKey_stack (k : Fin 16) (p : Bool) : (s.setKey k p).stack = s.stack := rfl
@[simp] theorem State.setKey_sp (k : Fin 16) (p : Bool) : (s.setKey k p).sp = s.sp := rfl
@[simp] theorem State.setKey_DT (k : Fin 16) (p : Bool) : (s.setKey k p).DT = s.DT := rfl
@[simp] theorem State.setKey_ST (k : Fin 16) (p : Bool) : (s.setKey k p).ST = s.ST := rfl
@[simp] theorem State.setKey_key (k : Fin 16) (p : Bool) : (s.setKey k p).key = s.key.set k.val p := rfl
@[simp] theorem State.setKey_disp (k : Fin 16) (p : Bool) : (s.setKey k p).disp = s.disp := rfl
@[simp] theorem State.setKey_wait (k : Fin 16) (p : Bool) : (s.setKey k p).wait = s.wait := rfl
@[simp] theorem State.setKey_fault (k : Fin 16) (p : Bool) : (s.setKey k p).fault = s.fault := rfl
@[simp] theorem State.setKey_injected (k : Fin 16) (p : Bool) : (s.setKey k p).injected = s.injected := rfl
@[simp] theorem State.setKey_drawCount (k : Fin 16) (p : Bool) : (s.setKey k p).drawCount = s.drawCount := rfl

@[simp] theorem State.setReg_mem (r : Reg) (v : Byte) : (s.setReg r v).mem = s.mem := rfl
@[simp] theorem State.setReg_x (r : Reg) (v : Byte) : (s.setReg r v).x = s.x.set r.val v := rfl
@[simp] theorem State.setReg_I (r : Reg) (v : Byte) : (s.setReg r v).I = s.I := rfl
@[simp] theorem State.setReg_pc (r : Reg) (v : Byte) : (s.setReg r v).pc = s.pc := rfl
@[simp] theorem State.setReg_stack (r : Reg) (v : Byte) : (s.setReg r v).stack = s.stack := rfl
@[simp] theorem State.setReg_sp (r : Reg) (v : Byte) : (s.setReg r v).sp = s.sp := rfl
@[simp] theorem State.setReg_DT (r : Reg) (v : Byte) : (s.setReg r v).DT = s.DT := rfl
@[simp] theorem State.setReg_ST (r : Reg) (v : Byte) : (s.setReg r v).ST = s.ST := rfl
@[simp] theorem State.setReg_key (r : Reg) (v : Byte) : (s.setReg r v).key = s.key := rfl
@[simp] theorem State.setReg_disp (r : Reg) (v : Byte) : (s.setReg r v).disp = s.disp := rfl
@[simp] theorem State.setReg_wait (r : Reg) (v : Byte) : (s.setReg r v).wait = s.wait := rfl
@[simp] theorem State.setReg_fault (r : Reg) (v : Byte) : (s.setReg r v).fault = s.fault := rfl
@[simp] theorem State.setReg_injected (r : Reg) (v : Byte) : (s.setReg r v).injected = s.injected := rfl
@[simp] theorem State.setReg_drawCount (r : Reg) (v : Byte) : (s.setReg r v).drawCount = s.drawCount := rfl

@[simp] theorem State.takeDraw_mem : (s.takeDraw).mem = s.mem := rfl
@[simp] theorem State.takeDraw_x : (s.takeDraw).x = s.x := rfl
@[simp] theorem State.takeDraw_I : (s.takeDraw).I = s.I := rfl
@[simp] theorem State.takeDraw_pc : (s.takeDraw).pc = s.pc := rfl
@[simp] theorem State.takeDraw_stack : (s.takeDraw).stack = s.stack := rfl
@[simp] theorem State.takeDraw_sp : (s.takeDraw).sp = s.sp := rfl
@[simp] theorem State.takeDraw_DT : (s.takeDraw).DT = s.DT := rfl
@[simp] theorem State.takeDraw_ST : (s.takeDraw).ST = s.ST := rfl
@[simp] theorem State.takeDraw_key : (s.takeDraw).key = s.key := rfl
@[simp] theorem State.takeDraw_disp : (s.takeDraw).disp = s.disp := rfl
@[simp] theorem State.takeDraw_wait : (s.takeDraw).wait = s.wait := rfl
@[simp] theorem State.takeDraw_fault : (s.takeDraw).fault = s.fault := rfl
@[simp] theorem State.takeDraw_injected : (s.takeDraw).injected = s.injected.tail := rfl
@[simp] theorem State.takeDraw_drawCount : (s.takeDraw).drawCount = s.drawCount + 1 := rfl

/-! Register reads through the updates. -/

@[simp] theorem State.reg_setMem (m : Memory) (q : Reg) : (s.setMem m).reg q = s.reg q := rfl
@[simp] theorem State.reg_setI (v : Word) (q : Reg) : (s.setI v).reg q = s.reg q := rfl
@[simp] theorem State.reg_setPc (v : Word) (q : Reg) : (s.setPc v).reg q = s.reg q := rfl
@[simp] theorem State.reg_setDT (v : Byte) (q : Reg) : (s.setDT v).reg q = s.reg q := rfl
@[simp] theorem State.reg_setST (v : Byte) (q : Reg) : (s.setST v).reg q = s.reg q := rfl
@[simp] theorem State.reg_setDisp (d : Display) (q : Reg) : (s.setDisp d).reg q = s.reg q := rfl
@[simp] theorem State.reg_setWait (v : Option Reg) (q : Reg) : (s.setWait v).reg q = s.reg q := rfl
@[simp] theorem State.reg_setFault (v : Option FaultRecord) (q : Reg) : (s.setFault v).reg q = s.reg q := rfl
@[simp] theorem State.reg_setKey (k : Fin 16) (p : Bool) (q : Reg) : (s.setKey k p).reg q = s.reg q := rfl
@[simp] theorem State.reg_takeDraw (q : Reg) : (s.takeDraw).reg q = s.reg q := rfl

theorem State.reg_setReg (r q : Reg) (v : Byte) : (s.setReg r v).reg q = if q = r then v else s.reg q := by
  simp only [State.reg, State.setReg, Vector.getElem_set, Fin.ext_iff, eq_comm]

@[simp] theorem State.reg_setReg_same (r : Reg) (v : Byte) : (s.setReg r v).reg r = v := by
  simp [State.reg_setReg]

theorem State.reg_setReg_other {r q : Reg} (v : Byte) (h : q ≠ r) : (s.setReg r v).reg q = s.reg q := by
  simp [State.reg_setReg, h]

end Sys2Proof.Machine
end

