-- ==== Sys2Proof/Laws/Memory.lean ====
section
/-! SUPPORT. Laws/Memory.lean: what a read sees after a write, and that every memory operation keeps the canonical form. -/

namespace Sys2Proof.Machine

/-- An address below every listed one reads as unlisted. -/
theorem Memory.read_below {m : Memory} {lo a : Nat} (h : m.wfFrom lo = true) (ha : a < lo) : m.read a = unlistedByte := by
  induction m generalizing lo with
  | nil => rfl
  | cons p m ih =>
    obtain ⟨k, v⟩ := p
    simp only [Memory.wfFrom, Bool.and_eq_true, decide_eq_true_eq] at h
    rw [Memory.read, if_neg (by omega), ih h.2 (by omega)]

theorem Memory.wfFrom_mono {m : Memory} {lo lo' : Nat} (h : m.wfFrom lo = true) (hl : lo' ≤ lo) : m.wfFrom lo' = true := by
  cases m with
  | nil => rfl
  | cons p m =>
    obtain ⟨k, v⟩ := p
    simp only [Memory.wfFrom, Bool.and_eq_true, decide_eq_true_eq] at h ⊢
    exact ⟨⟨⟨by omega, h.1.1.2⟩, h.1.2⟩, h.2⟩

/-- A write of one byte keeps the canonical form from any bound at or below its address. -/
theorem Memory.wfFrom_write {m : Memory} {lo a : Nat} (b : Byte) (h : m.wfFrom lo = true) (hlo : lo ≤ a)
    (ha : a < Config.memSize) : (m.write a b).wfFrom lo = true := by
  induction m generalizing lo with
  | nil =>
    rw [Memory.write]
    split
    · rfl
    · simp_all [Memory.wfFrom]
  | cons p m ih =>
    obtain ⟨k, v⟩ := p
    have hkv := h
    simp only [Memory.wfFrom, Bool.and_eq_true, decide_eq_true_eq] at h
    obtain ⟨⟨⟨hk, hks⟩, hv⟩, hm⟩ := h
    rw [Memory.write]
    split
    · split
      · exact hkv
      · simp_all [Memory.wfFrom]
    · split
      · split
        · exact Memory.wfFrom_mono hm (by omega)
        · subst a; simp_all [Memory.wfFrom]
      · simp only [Memory.wfFrom, Bool.and_eq_true, decide_eq_true_eq]
        exact ⟨⟨⟨hk, hks⟩, hv⟩, ih hm (by omega)⟩

theorem Memory.wf_write {m : Memory} {a : Nat} (b : Byte) (h : m.wf = true) (ha : a < Config.memSize) :
    (m.write a b).wf = true :=
  Memory.wfFrom_write b h (Nat.zero_le a) ha

/-- A read after a write of one byte: the byte at its address, every other byte as before. -/
theorem Memory.read_write {m : Memory} {lo : Nat} (a c : Nat) (b : Byte) (h : m.wfFrom lo = true) :
    (m.write a b).read c = if c = a then b else m.read c := by
  induction m generalizing lo with
  | nil =>
    rw [Memory.write]
    split <;> simp_all [Memory.read]
  | cons p m ih =>
    obtain ⟨k, v⟩ := p
    simp only [Memory.wfFrom, Bool.and_eq_true, decide_eq_true_eq] at h
    rw [Memory.write]
    split
    · split
      · subst b
        by_cases hc : c = a
        · subst hc
          rw [if_pos rfl, Memory.read, if_neg (by omega), Memory.read_below h.2 (by omega)]
        · rw [if_neg hc]
      · rfl
    · split
      · subst a
        split
        · subst b
          by_cases hc : c = k
          · subst hc
            rw [if_pos rfl, Memory.read_below h.2 (by omega)]
          · rw [if_neg hc, Memory.read, if_neg hc]
        · by_cases hc : c = k
          · simp [Memory.read, hc]
          · simp [Memory.read, hc]
      · rw [Memory.read, ih h.2, Memory.read]
        split
        · subst c; rw [if_neg (by omega)]
        · rfl

theorem Memory.wf_writeBytes {m : Memory} {a : Nat} (bs : List Byte) (h : m.wf = true)
    (ha : a + bs.length ≤ Config.memSize) : (m.writeBytes a bs).wf = true := by
  induction bs generalizing m a with
  | nil => exact h
  | cons b bs ih =>
    simp only [List.length_cons] at ha
    exact ih (Memory.wf_write b h (by omega)) (by omega)

/-- A read after a block write: the block's bytes in their order, every other byte as before. -/
theorem Memory.read_writeBytes {m : Memory} {a : Nat} (c : Nat) (bs : List Byte) (h : m.wf = true)
    (ha : a + bs.length ≤ Config.memSize) :
    (m.writeBytes a bs).read c = if a ≤ c ∧ c < a + bs.length then bs.getD (c - a) 0 else m.read c := by
  induction bs generalizing m a with
  | nil => rw [Memory.writeBytes, if_neg (by simp only [List.length_nil]; omega)]
  | cons b bs ih =>
    simp only [List.length_cons] at ha ⊢
    rw [Memory.writeBytes, ih (Memory.wf_write b h (by omega)) (by omega), Memory.read_write a c b h]
    by_cases h1 : c = a
    · subst h1
      rw [if_neg (by omega), if_pos rfl, if_pos (by omega), Nat.sub_self]
      rfl
    · by_cases h2 : a ≤ c ∧ c < a + (bs.length + 1)
      · rw [if_pos (by omega), if_pos h2, show c - a = (c - (a + 1)) + 1 by omega]
        rfl
      · rw [if_neg (by omega), if_neg h1, if_neg h2]

/-- The image of a list of bytes is in canonical form. -/
theorem Memory.wfFrom_image {a : Nat} (bs : List Byte) (ha : a + bs.length ≤ Config.memSize) :
    (Memory.image a bs).wfFrom a = true := by
  induction bs generalizing a with
  | nil => rfl
  | cons b bs ih =>
    simp only [List.length_cons] at ha
    rw [Memory.image]
    split
    · exact Memory.wfFrom_mono (ih (by omega)) (by omega)
    · simp_all [Memory.wfFrom]
      exact ⟨by omega, ih (by omega)⟩

theorem Memory.image_read_below {a c : Nat} (bs : List Byte) (hc : c < a) : (Memory.image a bs).read c = unlistedByte := by
  induction bs generalizing a with
  | nil => rfl
  | cons b bs ih =>
    rw [Memory.image]
    split
    · exact ih (by omega)
    · rw [Memory.read, if_neg (by omega), ih (by omega)]

/-- A read of the image of a list of bytes. -/
theorem Memory.read_image {a c : Nat} (bs : List Byte) :
    (Memory.image a bs).read c = if a ≤ c ∧ c < a + bs.length then bs.getD (c - a) 0 else unlistedByte := by
  induction bs generalizing a with
  | nil => rw [Memory.image, if_neg (by simp only [List.length_nil]; omega)]; rfl
  | cons b bs ih =>
    rw [Memory.image]
    by_cases h1 : c = a
    · subst h1
      have hin : c ≤ c ∧ c < c + (b :: bs).length := by simp
      rw [if_pos hin, Nat.sub_self]
      split
      · rename_i hb
        rw [Memory.image_read_below bs (by omega), ← hb]
        rfl
      · rw [Memory.read, if_pos rfl]
        rfl
    · have hrest : (Memory.image (a + 1) bs).read c =
          if a ≤ c ∧ c < a + (b :: bs).length then (b :: bs).getD (c - a) 0 else unlistedByte := by
        rw [ih, List.length_cons]
        by_cases h2 : a ≤ c ∧ c < a + (bs.length + 1)
        · rw [if_pos (by omega), if_pos h2, show c - a = (c - (a + 1)) + 1 by omega]
          rfl
        · rw [if_neg (by omega), if_neg h2]
      split
      · exact hrest
      · rw [Memory.read, if_neg h1, hrest]

end Sys2Proof.Machine
end

