-- ==== Sys2Proof/Laws/Ops.lean ====
section
/-! SUPPORT. Laws/Ops.lean: one lemma per shared operation that says what it can do. -/

namespace Sys2Proof.Machine

/-- CheckRange as a bound on unbounded integers (R39). -/
theorem checkRange_iff {a n : Nat} : checkRange a n = true ↔ n = 0 ∨ a + n ≤ 0x1000 := by
  simp only [checkRange, Bool.or_eq_true, decide_eq_true_eq]
  omega

theorem checkRange_false_iff {a n : Nat} : checkRange a n = false ↔ 0 < n ∧ 0xFFF < a + n - 1 := by
  rw [← Bool.not_eq_true, checkRange_iff]
  omega

/-! Fault entry. -/

theorem raiseFault_eq (k : FaultKind) (a : Word) (w : Option Word) (s : State) :
    raiseFault k a w s = s.setFault (some ⟨k, a, w⟩) := rfl

theorem raiseIn_eq (k : FaultKind) (i : Instr) (s : State) :
    raiseIn k i s = .next (s.setFault (some ⟨k, s.pc - 2, some (encode i)⟩)) := rfl

/-! The program counter and the stack. -/

@[simp] theorem State.skip_eq (s : State) : s.skip = s.setPc (s.pc + 2) := rfl

/-- A skip writes `pc` and nothing else. -/
theorem State.skipIf_eq (s : State) (c : Bool) : s.skipIf c = s.setPc (if c then s.pc + 2 else s.pc) := by
  cases c <;> rfl

/-- A push at capacity overflows (R21). -/
theorem State.push_full {s : State} (v : Word) (h : s.sp.val = 16) : s.push v = none := by
  rw [State.push, dif_neg (by omega)]

/-- A pop of the empty stack underflows (R21). -/
theorem State.pop_empty {s : State} (h : s.sp.val = 0) : s.pop = none := by
  rw [State.pop, dif_neg (by omega)]

/-! Register blocks. -/

/-- A block load writes registers and nothing else. -/
theorem State.setRegsFrom_eq (s : State) (k : Nat) (bs : List Byte) :
    s.setRegsFrom k bs = { s with x := (s.setRegsFrom k bs).x } := by
  induction bs generalizing s k with
  | nil => rfl
  | cons b bs ih =>
    rw [State.setRegsFrom]
    split
    · rw [ih]
      rfl
    · rfl

/-- A block load, register by register: those of the block take the bytes in order, the others keep their value (R100). -/
theorem State.reg_setRegsFrom (s : State) (k : Nat) (bs : List Byte) (q : Reg) :
    (s.setRegsFrom k bs).reg q = if k ≤ q.val ∧ q.val < k + bs.length then bs.getD (q.val - k) 0 else s.reg q := by
  induction bs generalizing s k with
  | nil => rw [State.setRegsFrom, if_neg (by simp only [List.length_nil]; omega)]
  | cons b bs ih =>
    have hq := q.isLt
    simp only [List.length_cons]
    rw [State.setRegsFrom]
    split
    · rename_i hk
      rw [ih]
      by_cases h1 : q.val = k
      · have hqk : q = ⟨k, hk⟩ := Fin.ext h1
        rw [if_neg (by omega), if_pos (by omega), hqk, State.reg_setReg_same]
        simp
      · by_cases h2 : k ≤ q.val ∧ q.val < k + (bs.length + 1)
        · rw [if_pos (by omega), if_pos h2, show q.val - k = (q.val - (k + 1)) + 1 by omega]
          rfl
        · rw [if_neg (by omega), if_neg h2, State.reg_setReg_other _ _ (fun e => h1 (by rw [e]))]
    · rw [if_neg (by omega)]

@[simp] theorem State.length_readBytes (s : State) (a n : Nat) : (s.readBytes a n).length = n := by
  simp [State.readBytes]

/-- The k-th byte of a read block is the byte at its address. -/
theorem State.getD_readBytes (s : State) {a n k : Nat} (h : k < n) : (s.readBytes a n).getD k 0 = s.mem.read (a + k) := by
  simp [State.readBytes, h]

@[simp] theorem State.length_regBlock (s : State) (x : Reg) : (s.regBlock x).length = x.val + 1 := by
  have := x.isLt
  simp only [State.regBlock, blockSize, List.length_take, Vector.length_toList]
  omega

/-- The k-th byte of a stored block is register k. -/
theorem State.getD_regBlock (s : State) {x k : Reg} (h : k.val ≤ x.val) : (s.regBlock x).getD k.val 0 = s.reg k := by
  have hk := k.isLt
  simp only [State.regBlock, blockSize, State.reg, List.getD_eq_getElem?_getD]
  rw [List.getElem?_take_of_lt (by omega)]
  simp

@[simp] theorem length_bcdDigits (v : Byte) : (bcdDigits v).length = 3 := rfl

/-! Block writes. -/

/-- A block write writes memory and nothing else. -/
theorem State.writeBytes_eq (s : State) (a : Nat) (bs : List Byte) :
    s.writeBytes a bs = s.setMem (s.mem.writeBytes a bs) := rfl

/-- A block write in range keeps the canonical form. -/
theorem State.wf_writeBytes {s : State} {a : Nat} {bs : List Byte} (h : s.mem.wf = true)
    (hr : checkRange a bs.length = true) : (s.writeBytes a bs).mem.wf = true := by
  rcases checkRange_iff.1 hr with h0 | h0
  · rw [List.length_eq_zero_iff.1 h0]
    exact h
  · exact Memory.wf_writeBytes bs h h0

/-- A read after a block write in range. -/
theorem State.read_writeBytes {s : State} {a : Nat} {bs : List Byte} (c : Nat) (h : s.mem.wf = true)
    (hr : checkRange a bs.length = true) :
    (s.writeBytes a bs).mem.read c = if a ≤ c ∧ c < a + bs.length then bs.getD (c - a) 0 else s.mem.read c := by
  rcases checkRange_iff.1 hr with h0 | h0
  · rw [List.length_eq_zero_iff.1 h0, if_neg (by simp only [List.length_nil]; omega)]
    rfl
  · exact Memory.read_writeBytes c bs h h0

/-! Flags. -/

theorem flagByte_eq_one {b : Bool} : flagByte b = 0x01 ↔ b = true := by cases b <;> decide

theorem flagByte_eq_zero {b : Bool} : flagByte b = 0x00 ↔ b = false := by cases b <;> decide

/-- A result and a flag, register by register: the flag wins in VF (R81(b)). -/
theorem State.reg_setResultAndFlag (s : State) (x q : Reg) (v : Byte) (f : Bool) :
    (s.setResultAndFlag x v f).reg q = if q = VF then flagByte f else if q = x then v else s.reg q := by
  simp [State.setResultAndFlag, State.reg_setReg]

/-- A result and a flag write registers and nothing else. -/
theorem State.setResultAndFlag_eq (s : State) (x : Reg) (v : Byte) (f : Bool) :
    s.setResultAndFlag x v f = { s with x := (s.setResultAndFlag x v f).x } := rfl

/-! The fetch. -/

/-- A fetch in range reads the two bytes at `pc`; out of range it reads nothing (R64). -/
theorem State.fetchWord_eq (s : State) :
    s.fetchWord = if s.pc.toNat ≤ 0xFFE then some (wordOf (s.mem.read s.pc.toNat) (s.mem.read (s.pc.toNat + 1))) else none := by
  rw [State.fetchWord]
  by_cases h : s.pc.toNat ≤ 0xFFE
  · rw [if_pos (checkRange_iff.2 (.inr (by omega))), if_pos h]
  · rw [if_neg (by rw [checkRange_iff]; omega), if_neg h]

end Sys2Proof.Machine
end

