-- ==== Sys2Proof/Laws/Frames.lean ====
section
/-! SUPPORT. Laws/Frames.lean: the frame of each shared operation, and how frames compose. -/

namespace Sys2Proof.Machine

theorem SameBut.refl (c : List Elem) (s : State) : SameBut c s s := by
  intro e _
  cases e <;> first | rfl | exact fun _ => rfl

theorem SameBut.mono {c d : List Elem} {s t : State} (h : SameBut c s t) (hcd : c ⊆ d) : SameBut d s t :=
  fun e he => h e fun hc => he (hcd hc)

theorem Elem.same_trans {e : Elem} {s t u : State} (h : e.same s t) (h' : e.same t u) : e.same s u := by
  cases e <;> first | exact h'.trans h | exact fun a => (h' a).trans (h a)

theorem SameBut.trans {c : List Elem} {s t u : State} (h : SameBut c s t) (h' : SameBut c t u) : SameBut c s u :=
  fun e he => Elem.same_trans (h e he) (h' e he)

section updates

variable (s : State)

theorem sameBut_setReg (r : Reg) (v : Byte) : SameBut [.x] s (s.setReg r v) := by
  intro e he; cases e <;> first | rfl | exact fun _ => rfl | simp at he

theorem sameBut_setMem (m : Memory) : SameBut [.mem] s (s.setMem m) := by
  intro e he; cases e <;> first | rfl | exact fun _ => rfl | simp at he

theorem sameBut_setI (v : Word) : SameBut [.I] s (s.setI v) := by
  intro e he; cases e <;> first | rfl | exact fun _ => rfl | simp at he

theorem sameBut_setPc (v : Word) : SameBut [.pc] s (s.setPc v) := by
  intro e he; cases e <;> first | rfl | exact fun _ => rfl | simp at he

theorem sameBut_setDT (v : Byte) : SameBut [.DT] s (s.setDT v) := by
  intro e he; cases e <;> first | rfl | exact fun _ => rfl | simp at he

theorem sameBut_setST (v : Byte) : SameBut [.ST] s (s.setST v) := by
  intro e he; cases e <;> first | rfl | exact fun _ => rfl | simp at he

theorem sameBut_setDisp (d : Display) : SameBut [.disp] s (s.setDisp d) := by
  intro e he; cases e <;> first | rfl | exact fun _ => rfl | simp at he

theorem sameBut_setWait (v : Option Reg) : SameBut [.wait] s (s.setWait v) := by
  intro e he; cases e <;> first | rfl | exact fun _ => rfl | simp at he

theorem sameBut_setFault (v : Option FaultRecord) : SameBut [.fault] s (s.setFault v) := by
  intro e he; cases e <;> first | rfl | exact fun _ => rfl | simp at he

theorem sameBut_setKey (k : Fin 16) (p : Bool) : SameBut [.key] s (s.setKey k p) := by
  intro e he; cases e <;> first | rfl | exact fun _ => rfl | simp at he

theorem sameBut_takeDraw : SameBut [.injected, .drawCount] s s.takeDraw := by
  intro e he; cases e <;> first | rfl | exact fun _ => rfl | simp at he

theorem sameBut_setResultAndFlag (x : Reg) (v : Byte) (f : Bool) : SameBut [.x] s (s.setResultAndFlag x v f) := by
  intro e he; cases e <;> first | rfl | exact fun _ => rfl | simp at he

theorem sameBut_setRegsFrom (k : Nat) (bs : List Byte) : SameBut [.x] s (s.setRegsFrom k bs) := by
  rw [State.setRegsFrom_eq]
  intro e he; cases e <;> first | rfl | exact fun _ => rfl | simp at he

theorem sameBut_writeBytes (a : Nat) (bs : List Byte) : SameBut [.mem] s (s.writeBytes a bs) :=
  sameBut_setMem s _

theorem sameBut_tick : SameBut [.DT, .ST] s s.tick := by
  intro e he; cases e <;> first | rfl | exact fun _ => rfl | simp at he

/-- A push below capacity writes entry `sp` and adds one to `sp` (R21). -/
theorem push_below {s : State} (v : Word) (h : s.sp.val < 16) :
    ∃ t, s.push v = some t ∧ t.sp.val = s.sp.val + 1 ∧ t.stack = s.stack.set s.sp.val v ∧ SameBut [.stack, .sp] s t := by
  rw [State.push, dif_pos h]
  refine ⟨_, rfl, rfl, rfl, ?_⟩
  intro e he; cases e <;> first | rfl | exact fun _ => rfl | simp at he

/-- A pop of a stack in use answers the top entry and takes one from `sp` (R21). -/
theorem pop_above {s : State} (h : 0 < s.sp.val) :
    ∃ t, s.pop = some (s.stack[s.sp.val - 1]'(by omega), t) ∧ t.sp.val = s.sp.val - 1 ∧ SameBut [.sp] s t := by
  rw [State.pop, dif_pos h]
  refine ⟨_, rfl, rfl, ?_⟩
  intro e he; cases e <;> first | rfl | exact fun _ => rfl | simp at he

end updates

end Sys2Proof.Machine
end

