-- ==== Sys2Proof/Laws/PerInstr.lean ====
section
/-! SUPPORT. Laws/PerInstr.lean: the word of every instruction has, in the fixed fields of its row of the opcode table, the row's
values (R57). -/

namespace Sys2Proof.Laws.EncodeMatchesRow

/-- The row of the instruction's mnemonic stands in the table and selects the instruction's word. -/
def Statement (i : Instr) : Prop := ∃ r ∈ opcodeTable, r.mnemonic = i.mnemonic ∧ r.selects (encode i) = true

/-- The fixed fields of the rows of shape XY. -/
theorem selects_wordXY {op n : Nat} {m : String} (h : op < 16) (hn : n < 16) (x y : Reg) :
    (Row.mk m [⟨3, 0, n⟩, ⟨15, 12, op⟩]).selects (wordXY op x y n) = true := by
  have := x.isLt
  have := y.isLt
  simp only [Row.selects, List.all_cons, List.all_nil, bits, toNat_wordXY h hn, Bool.and_true, Bool.and_eq_true, beq_iff_eq]
  omega

/-- The fixed fields of the rows of shape XF. -/
theorem selects_wordXF {op low : Nat} {m : String} (h : op < 16) (hl : low < 256) (x : Reg) :
    (Row.mk m [⟨7, 0, low⟩, ⟨15, 12, op⟩]).selects (wordXF op x low) = true := by
  have := x.isLt
  simp only [Row.selects, List.all_cons, List.all_nil, bits, toNat_wordXF h hl, Bool.and_true, Bool.and_eq_true, beq_iff_eq]
  omega

theorem cls : Statement .cls := ⟨⟨"00E0", [⟨15, 0, 224⟩]⟩, by simp [opcodeTable], rfl, by decide⟩

theorem ret : Statement .ret := ⟨⟨"00EE", [⟨15, 0, 238⟩]⟩, by simp [opcodeTable], rfl, by decide⟩

theorem jp (nnn : Addr12) : Statement (.jp nnn) :=
  ⟨⟨"1NNN", [⟨15, 12, 1⟩]⟩, by simp [opcodeTable], rfl, by simpa [Row.selects, encode, fields] using (fields_wordA (op := 1) (by decide) nnn).1⟩

theorem call (nnn : Addr12) : Statement (.call nnn) :=
  ⟨⟨"2NNN", [⟨15, 12, 2⟩]⟩, by simp [opcodeTable], rfl, by simpa [Row.selects, encode, fields] using (fields_wordA (op := 2) (by decide) nnn).1⟩

theorem seImm (x : Reg) (nn : Byte) : Statement (.seImm x nn) :=
  ⟨⟨"3XNN", [⟨15, 12, 3⟩]⟩, by simp [opcodeTable], rfl, by simpa [Row.selects, encode, fields] using (fields_wordXK (op := 3) (by decide) x nn).1⟩

theorem sneImm (x : Reg) (nn : Byte) : Statement (.sneImm x nn) :=
  ⟨⟨"4XNN", [⟨15, 12, 4⟩]⟩, by simp [opcodeTable], rfl, by simpa [Row.selects, encode, fields] using (fields_wordXK (op := 4) (by decide) x nn).1⟩

theorem seReg (x y : Reg) : Statement (.seReg x y) :=
  ⟨⟨"5XY0", [⟨3, 0, 0⟩, ⟨15, 12, 5⟩]⟩, by simp [opcodeTable], rfl, selects_wordXY (by decide) (by decide) x y⟩

theorem ldImm (x : Reg) (nn : Byte) : Statement (.ldImm x nn) :=
  ⟨⟨"6XNN", [⟨15, 12, 6⟩]⟩, by simp [opcodeTable], rfl, by simpa [Row.selects, encode, fields] using (fields_wordXK (op := 6) (by decide) x nn).1⟩

theorem addImm (x : Reg) (nn : Byte) : Statement (.addImm x nn) :=
  ⟨⟨"7XNN", [⟨15, 12, 7⟩]⟩, by simp [opcodeTable], rfl, by simpa [Row.selects, encode, fields] using (fields_wordXK (op := 7) (by decide) x nn).1⟩

theorem ldReg (x y : Reg) : Statement (.ldReg x y) :=
  ⟨⟨"8XY0", [⟨3, 0, 0⟩, ⟨15, 12, 8⟩]⟩, by simp [opcodeTable], rfl, selects_wordXY (by decide) (by decide) x y⟩

theorem orReg (x y : Reg) : Statement (.orReg x y) :=
  ⟨⟨"8XY1", [⟨3, 0, 1⟩, ⟨15, 12, 8⟩]⟩, by simp [opcodeTable], rfl, selects_wordXY (by decide) (by decide) x y⟩

theorem andReg (x y : Reg) : Statement (.andReg x y) :=
  ⟨⟨"8XY2", [⟨3, 0, 2⟩, ⟨15, 12, 8⟩]⟩, by simp [opcodeTable], rfl, selects_wordXY (by decide) (by decide) x y⟩

theorem xorReg (x y : Reg) : Statement (.xorReg x y) :=
  ⟨⟨"8XY3", [⟨3, 0, 3⟩, ⟨15, 12, 8⟩]⟩, by simp [opcodeTable], rfl, selects_wordXY (by decide) (by decide) x y⟩

theorem addReg (x y : Reg) : Statement (.addReg x y) :=
  ⟨⟨"8XY4", [⟨3, 0, 4⟩, ⟨15, 12, 8⟩]⟩, by simp [opcodeTable], rfl, selects_wordXY (by decide) (by decide) x y⟩

theorem subReg (x y : Reg) : Statement (.subReg x y) :=
  ⟨⟨"8XY5", [⟨3, 0, 5⟩, ⟨15, 12, 8⟩]⟩, by simp [opcodeTable], rfl, selects_wordXY (by decide) (by decide) x y⟩

theorem shr (x y : Reg) : Statement (.shr x y) :=
  ⟨⟨"8XY6", [⟨3, 0, 6⟩, ⟨15, 12, 8⟩]⟩, by simp [opcodeTable], rfl, selects_wordXY (by decide) (by decide) x y⟩

theorem subn (x y : Reg) : Statement (.subn x y) :=
  ⟨⟨"8XY7", [⟨3, 0, 7⟩, ⟨15, 12, 8⟩]⟩, by simp [opcodeTable], rfl, selects_wordXY (by decide) (by decide) x y⟩

theorem shl (x y : Reg) : Statement (.shl x y) :=
  ⟨⟨"8XYE", [⟨3, 0, 14⟩, ⟨15, 12, 8⟩]⟩, by simp [opcodeTable], rfl, selects_wordXY (by decide) (by decide) x y⟩

theorem sneReg (x y : Reg) : Statement (.sneReg x y) :=
  ⟨⟨"9XY0", [⟨3, 0, 0⟩, ⟨15, 12, 9⟩]⟩, by simp [opcodeTable], rfl, selects_wordXY (by decide) (by decide) x y⟩

theorem ldI (nnn : Addr12) : Statement (.ldI nnn) :=
  ⟨⟨"ANNN", [⟨15, 12, 10⟩]⟩, by simp [opcodeTable], rfl, by simpa [Row.selects, encode, fields] using (fields_wordA (op := 10) (by decide) nnn).1⟩

theorem jpV0 (nnn : Addr12) : Statement (.jpV0 nnn) :=
  ⟨⟨"BNNN", [⟨15, 12, 11⟩]⟩, by simp [opcodeTable], rfl, by simpa [Row.selects, encode, fields] using (fields_wordA (op := 11) (by decide) nnn).1⟩

theorem rnd (x : Reg) (nn : Byte) : Statement (.rnd x nn) :=
  ⟨⟨"CXNN", [⟨15, 12, 12⟩]⟩, by simp [opcodeTable], rfl, by simpa [Row.selects, encode, fields] using (fields_wordXK (op := 12) (by decide) x nn).1⟩

theorem drw (x y : Reg) (n : Fin 16) : Statement (.drw x y n) :=
  ⟨⟨"DXYN", [⟨15, 12, 13⟩]⟩, by simp [opcodeTable], rfl, by simpa [Row.selects, encode, fields] using (fields_wordXY (op := 13) (by decide) n.isLt x y).1⟩

theorem skp (x : Reg) : Statement (.skp x) :=
  ⟨⟨"EX9E", [⟨7, 0, 158⟩, ⟨15, 12, 14⟩]⟩, by simp [opcodeTable], rfl, selects_wordXF (by decide) (by decide) x⟩

theorem sknp (x : Reg) : Statement (.sknp x) :=
  ⟨⟨"EXA1", [⟨7, 0, 161⟩, ⟨15, 12, 14⟩]⟩, by simp [opcodeTable], rfl, selects_wordXF (by decide) (by decide) x⟩

theorem ldVxDT (x : Reg) : Statement (.ldVxDT x) :=
  ⟨⟨"FX07", [⟨7, 0, 7⟩, ⟨15, 12, 15⟩]⟩, by simp [opcodeTable], rfl, selects_wordXF (by decide) (by decide) x⟩

theorem ldVxK (x : Reg) : Statement (.ldVxK x) :=
  ⟨⟨"FX0A", [⟨7, 0, 10⟩, ⟨15, 12, 15⟩]⟩, by simp [opcodeTable], rfl, selects_wordXF (by decide) (by decide) x⟩

theorem ldDTVx (x : Reg) : Statement (.ldDTVx x) :=
  ⟨⟨"FX15", [⟨7, 0, 21⟩, ⟨15, 12, 15⟩]⟩, by simp [opcodeTable], rfl, selects_wordXF (by decide) (by decide) x⟩

theorem ldSTVx (x : Reg) : Statement (.ldSTVx x) :=
  ⟨⟨"FX18", [⟨7, 0, 24⟩, ⟨15, 12, 15⟩]⟩, by simp [opcodeTable], rfl, selects_wordXF (by decide) (by decide) x⟩

theorem addI (x : Reg) : Statement (.addI x) :=
  ⟨⟨"FX1E", [⟨7, 0, 30⟩, ⟨15, 12, 15⟩]⟩, by simp [opcodeTable], rfl, selects_wordXF (by decide) (by decide) x⟩

theorem ldF (x : Reg) : Statement (.ldF x) :=
  ⟨⟨"FX29", [⟨7, 0, 41⟩, ⟨15, 12, 15⟩]⟩, by simp [opcodeTable], rfl, selects_wordXF (by decide) (by decide) x⟩

theorem ldB (x : Reg) : Statement (.ldB x) :=
  ⟨⟨"FX33", [⟨7, 0, 51⟩, ⟨15, 12, 15⟩]⟩, by simp [opcodeTable], rfl, selects_wordXF (by decide) (by decide) x⟩

theorem storeRegs (x : Reg) : Statement (.storeRegs x) :=
  ⟨⟨"FX55", [⟨7, 0, 85⟩, ⟨15, 12, 15⟩]⟩, by simp [opcodeTable], rfl, selects_wordXF (by decide) (by decide) x⟩

theorem loadRegs (x : Reg) : Statement (.loadRegs x) :=
  ⟨⟨"FX65", [⟨7, 0, 101⟩, ⟨15, 12, 15⟩]⟩, by simp [opcodeTable], rfl, selects_wordXF (by decide) (by decide) x⟩

end Sys2Proof.Laws.EncodeMatchesRow
end

