-- ==== Sys2Proof/Laws/Step.lean ====
section
/-! SUPPORT. Laws/Step.lean: the instruction cycle, phase by phase, and schedules, transaction by transaction. -/

namespace Sys2Proof.Machine

/-- A running core's Step is one instruction. -/
theorem step_of_running {s : State} (h : s.running) : step s = runInstruction s := by
  obtain ⟨hf, hw⟩ := h
  unfold step stepCore
  rw [hf, hw]

/-- A fetched word is executed with `pc` past it. -/
theorem runInstruction_of_fetched {s : State} {w : Word} (h : s.fetchWord = some w) :
    runInstruction s = executeWord w (s.setPc (s.pc + 2)) := by
  rw [runInstruction, h]

/-- A fetch out of range is a fault entry with no word. -/
theorem runInstruction_of_not_fetched {s : State} (h : s.fetchWord = none) :
    runInstruction s = .next (s.setFault (some ⟨.memoryBounds, s.pc, none⟩)) := by
  rw [runInstruction, h]
  rfl

/-- A decoded word is its instruction. -/
theorem executeWord_of_decoded {w : Word} {i : Instr} (s : State) (h : decodeWord w = .ok i) :
    executeWord w s = exec i s := by
  rw [executeWord, h]

/-- A refused word is a fault entry with that word. -/
theorem executeWord_of_refused {w : Word} {e : DecodeError} (s : State) (h : decodeWord w = .error e) :
    executeWord w s = .next (s.setFault (some ⟨.unknownOpcode, s.pc - 2, some w⟩)) := by
  rw [executeWord, h]
  rfl

/-- The two bytes at `pc` of an in-range fetch, as the word's high and low byte (R38). -/
theorem State.fetchWord_of_bytes {s : State} {w : Word} (hpc : s.pc.toNat ≤ 0xFFE)
    (h1 : bits w 15 8 = (s.mem.read s.pc.toNat).toNat) (h2 : bits w 7 0 = (s.mem.read (s.pc.toNat + 1)).toNat) :
    s.fetchWord = some w := by
  rw [State.fetchWord_eq, if_pos hpc]
  congr 1
  apply BitVec.eq_of_toNat_eq
  have := w.isLt
  rw [toNat_wordOf, ← h1, ← h2]
  simp only [bits]
  omega

/-! Schedules. -/

@[simp] theorem runSchedule_nil (font : Config.FontImage) (s : State) : runSchedule font [] s = s := rfl

@[simp] theorem runSchedule_cons (font : Config.FontImage) (t : Transaction) (ts : List Transaction) (s : State) :
    runSchedule font (t :: ts) s = runSchedule font ts (transact font t s).2 := rfl

/-- One Tick's countdown is subtraction clamped at 0 (R131). -/
theorem toNat_countDown (v : Byte) : (countDown v).toNat = v.toNat - 1 := by
  have := v.isLt
  rw [countDown]
  split
  · have h1 : (1 : Byte).toNat = 1 := rfl
    rw [BitVec.toNat_sub]
    omega
  · omega

end Sys2Proof.Machine
end

