-- ==== Sys2Proof/Tests/Slice0.lean ====
section
/-! SUPPORT. Tests/Slice0.lean: the author's own tests. Expected values come from spec/95_test_vectors.md (the row is named in
each comment) or from the encodings of spec/30_encoding.md; the witnesses at the end show that the hypotheses of the statements
in Certificates/Slice0/Obligations.lean can be met, at boundary values. -/

namespace Sys2Proof.Tests

open Sys2Proof Sys2Proof.Machine

/-- One Step of `s` with the word `w` placed where it fetches; none if it is no next state. -/
def afterWord (w : Nat) (s : State) : Option State :=
  match step (s.withFetchWord 16 w) with
  | .next t => some t
  | .fault _ => none
  | .refused _ => none

/-- The next state of an outcome. -/
def nextOf : Result → Option State
  | .next t => some t
  | .fault _ => none
  | .refused _ => none

/-- The reset state with VF = 55, as the tables of the vectors start. -/
def base : State := State.reset.setReg VF 0x55

/-- Two registers set. -/
def regs2 (a : Reg) (v : Byte) (b : Reg) (v' : Byte) (s : State) : State := (s.setReg a v).setReg b v'

/-- A stack depth and one entry. -/
def stackOf (n : Fin 17) (k : Fin 16) (v : Word) (s : State) : State := { s with sp := n, stack := s.stack.set k.val v }

/-! WellFormed: an ill-formed line for each check is refused, and its greatest well-formed neighbour is not. -/

theorem test_illformed_register : (Asm.ldImm 16 0).wellFormed = false ∧ (Asm.ldImm 15 0).wellFormed = true := by decide

theorem test_illformed_second_register : (Asm.addReg 0 16).wellFormed = false ∧ (Asm.shr 0 (some 16)).wellFormed = false := by decide

theorem test_illformed_byte : (Asm.seImm 0 256).wellFormed = false ∧ (Asm.seImm 0 255).wellFormed = true := by decide

theorem test_illformed_address : (Asm.call 4096).wellFormed = false ∧ (Asm.call 4095).wellFormed = true := by decide

theorem test_illformed_nibble : (Asm.drw 0 0 16).wellFormed = false ∧ (Asm.drw 0 0 15).wellFormed = true := by decide

theorem test_illformed_data_word : (Asm.dataWord 65536).wellFormed = false ∧ (Asm.dataWord 65535).wellFormed = true := by decide

theorem test_illformed_data_byte : (Asm.dataByte 256).wellFormed = false ∧ (Asm.dataByte 255).wellFormed = true := by decide

/-- An ill-formed line has no bytes. -/
theorem test_illformed_line_has_no_bytes : bytesOfAsm (.ldI 4096) = none := by decide

/-- Program P3's listing: `LD B, V2` is F2 33. -/
theorem test_assemble_bcd : bytesOfAsm (.ldB 2) = some [0xF2, 0x33] ∧ textOfAsm (.ldB 2) = "LD B, V2" := by decide

/-! Decode: a word of each constructor, written out bit by bit from R53 and the table of R57. -/

theorem test_decode_cls : decodeWord 0b0000000011100000 = .ok (.cls) := rfl

theorem test_decode_ret : decodeWord 0b0000000011101110 = .ok (.ret) := rfl

theorem test_decode_jp : decodeWord 0b0001101010111100 = .ok (.jp 0xABC) := rfl

theorem test_decode_call : decodeWord 0b0010001100000000 = .ok (.call 0x300) := rfl

theorem test_decode_se_imm : decodeWord 0b0011101000000111 = .ok (.seImm 0xA 0x07) := rfl

theorem test_decode_sne_imm : decodeWord 0b0100101000000111 = .ok (.sneImm 0xA 0x07) := rfl

theorem test_decode_se_reg : decodeWord 0b0101000100100000 = .ok (.seReg 1 2) := rfl

theorem test_decode_ld_imm : decodeWord 0b0110101001000010 = .ok (.ldImm 0xA 0x42) := rfl

theorem test_decode_add_imm : decodeWord 0b0111101011111111 = .ok (.addImm 0xA 0xFF) := rfl

theorem test_decode_ld_reg : decodeWord 0b1000000100100000 = .ok (.ldReg 1 2) := rfl

theorem test_decode_or : decodeWord 0b1000000100100001 = .ok (.orReg 1 2) := rfl

theorem test_decode_and : decodeWord 0b1000000100100010 = .ok (.andReg 1 2) := rfl

theorem test_decode_xor : decodeWord 0b1000000100100011 = .ok (.xorReg 1 2) := rfl

theorem test_decode_add_reg : decodeWord 0b1000000100100100 = .ok (.addReg 1 2) := rfl

theorem test_decode_sub : decodeWord 0b1000000100100101 = .ok (.subReg 1 2) := rfl

theorem test_decode_shr : decodeWord 0b1000000100100110 = .ok (.shr 1 2) := rfl

theorem test_decode_subn : decodeWord 0b1000000100100111 = .ok (.subn 1 2) := rfl

theorem test_decode_shl : decodeWord 0b1000000100101110 = .ok (.shl 1 2) := rfl

theorem test_decode_sne_reg : decodeWord 0b1001000100100000 = .ok (.sneReg 1 2) := rfl

theorem test_decode_ld_I : decodeWord 0b1010000100100011 = .ok (.ldI 0x123) := rfl

theorem test_decode_jp_V0 : decodeWord 0b1011111111111111 = .ok (.jpV0 0xFFF) := rfl

theorem test_decode_rnd : decodeWord 0b1100001100001111 = .ok (.rnd 3 0x0F) := rfl

theorem test_decode_drw : decodeWord 0b1101000000010010 = .ok (.drw 0 1 2) := rfl

theorem test_decode_skp : decodeWord 0b1110010110011110 = .ok (.skp 5) := rfl

theorem test_decode_sknp : decodeWord 0b1110010110100001 = .ok (.sknp 5) := rfl

theorem test_decode_ld_Vx_DT : decodeWord 0b1111001100000111 = .ok (.ldVxDT 3) := rfl

theorem test_decode_ld_Vx_K : decodeWord 0b1111001100001010 = .ok (.ldVxK 3) := rfl

theorem test_decode_ld_DT_Vx : decodeWord 0b1111000000010101 = .ok (.ldDTVx 0) := rfl

theorem test_decode_ld_ST_Vx : decodeWord 0b1111000100011000 = .ok (.ldSTVx 1) := rfl

theorem test_decode_add_I : decodeWord 0b1111111100011110 = .ok (.addI 0xF) := rfl

theorem test_decode_ld_F : decodeWord 0b1111010100101001 = .ok (.ldF 5) := rfl

theorem test_decode_ld_B : decodeWord 0b1111001000110011 = .ok (.ldB 2) := rfl

theorem test_decode_store_regs : decodeWord 0b1111001001010101 = .ok (.storeRegs 2) := rfl

theorem test_decode_load_regs : decodeWord 0b1111111101100101 = .ok (.loadRegs 0xF) := rfl

/-- The byte at the lower address is bits 15:8 (R38). -/
theorem test_decode_byte_order : decodeBytes [0x81, 0xF6, 0x12] = .ok (.shr 1 0xF, [0x12]) := rfl

/-- The table numbers bit 0 as the least significant bit of the word. -/
theorem test_decode_table_word : decodeTableWord 16 0xA123 = some (.ldI 0x123) := rfl

/-- One byte is no instruction (R60). -/
theorem test_decode_truncated : decodeBytes [0x12] = .error .truncated := rfl

/-- Vectors E1 to E4: family 0. -/
theorem test_illegal_family_0 : [0x0000, 0x00E1, 0x01E0, 0x0123].all (fun w => decodeTableWord 16 w == none) = true := by decide

/-- Vectors E5 and E6: families 5 and 9. -/
theorem test_illegal_families_5_9 : [0x5121, 0x912F].all (fun w => decodeTableWord 16 w == none) = true := by decide

/-- Vector E7: family 8. -/
theorem test_illegal_family_8 :
    [0x8128, 0x8129, 0x812A, 0x812B, 0x812C, 0x812D, 0x812F].all (fun w => decodeTableWord 16 w == none) = true := by decide

/-- Vectors E8 and E9: families E and F. -/
theorem test_illegal_families_E_F :
    [0xE19F, 0xE1A2, 0xE100, 0xF000, 0xF108, 0xFF01, 0xF130, 0xF175].all (fun w => decodeTableWord 16 w == none) = true := by
  decide

/-! The instruction cycle. -/

/-- Vector E1. -/
theorem test_illegal_word_faults :
    (nextOf (step State.reset)).map (fun t => (t.fault, t.pc)) = some (some ⟨.unknownOpcode, 0x200, some 0x0000⟩, 0x202) := by decide

/-- Vector E10. -/
theorem test_fetch_at_FFE :
    (afterWord 0x6007 (State.reset.setPc 0xFFE)).map (fun t => (t.reg 0, t.pc)) = some (0x07, 0x1000) := by decide

/-- Vector E11. -/
theorem test_fetch_at_FFF_faults :
    (nextOf (step (State.reset.setPc 0xFFF))).map (fun t => (t.fault, t.pc)) = some (some ⟨.memoryBounds, 0xFFF, none⟩, 0xFFF) := by decide

/-- Vector E13. -/
theorem test_fetch_at_odd_address :
    (afterWord 0x6A42 (State.reset.setPc 0x201)).map (fun t => (t.reg 0xA, t.pc)) = some (0x42, 0x203) := by decide

/-- Vector E14. -/
theorem test_fault_is_sticky :
    step (State.reset.setFault (some ⟨.unknownOpcode, 0x200, some 0⟩)) = .fault (.recorded ⟨.unknownOpcode, 0x200, some 0⟩) := rfl

/-- Vectors E15 and K8. -/
theorem test_wait_holds :
    (State.reset.setWait (some 3)).hostStep = (.hold, State.reset.setWait (some 3)) := by decide

/-! One Step of each instruction. -/

/-- Vector G1. -/
theorem test_cls :
    (afterWord 0x00E0 (base.setDisp (setPixel blankDisplay 31 63 true))).map (fun t => (pixel t.disp 31 63, t.reg VF)) =
      some (false, 0x55) := by decide

/-- Vector F1. -/
theorem test_ret_underflow :
    (afterWord 0x00EE (base)).map (fun t => (t.fault, t.pc, t.sp)) =
      some (some ⟨.stackUnderflow, 0x200, some 0x00EE⟩, 0x202, 0) := by decide

/-- Vector F2. -/
theorem test_ret :
    (afterWord 0x00EE (stackOf 2 1 0x456 base)).map (fun t => (t.pc, t.sp)) =
      some (0x456, 1) := by decide

/-- Vector F3. -/
theorem test_jp :
    (afterWord 0x1ABC (base)).map (fun t => t.pc) =
      some 0xABC := by decide

/-- Vector F6. -/
theorem test_call :
    (afterWord 0x2ABC (base)).map (fun t => (t.stack[0], t.sp, t.pc)) =
      some (0x202, 1, 0xABC) := by decide

/-- Vector F7. -/
theorem test_call_overflow :
    (afterWord 0x2ABC (stackOf 16 15 0x333 base)).map (fun t => (t.fault, t.pc, t.sp, t.stack[15])) =
      some (some ⟨.stackOverflow, 0x200, some 0x2ABC⟩, 0x202, 16, 0x333) := by decide

/-- Vector F9. -/
theorem test_se_imm_taken :
    (afterWord 0x3A07 (base.setReg 0xA 0x07)).map (fun t => t.pc) =
      some 0x204 := by decide

/-- Vector F11. -/
theorem test_se_imm_taken_at_FFE :
    (afterWord 0x3000 (base.setPc 0xFFE)).map (fun t => t.pc) =
      some 0x1002 := by decide

/-- Vector F12. -/
theorem test_sne_imm_not_taken :
    (afterWord 0x4A07 (base.setReg 0xA 0x07)).map (fun t => t.pc) =
      some 0x202 := by decide

/-- Vector F13: no fall-through into 6XNN (C9). -/
theorem test_sne_imm_taken :
    (afterWord 0x4A07 (base.setReg 0xA 0x08)).map (fun t => (t.pc, t.reg 0xA)) =
      some (0x204, 0x08) := by decide

/-- Vector F14. -/
theorem test_se_reg_taken :
    (afterWord 0x5120 (regs2 1 0x33 2 0x33 base)).map (fun t => t.pc) =
      some 0x204 := by decide

/-- Vector F15. -/
theorem test_se_reg_not_taken :
    (afterWord 0x5120 (regs2 1 0x01 2 0x02 base)).map (fun t => t.pc) =
      some 0x202 := by decide

/-- Vector F17. -/
theorem test_sne_reg_taken :
    (afterWord 0x9120 (regs2 1 0x01 2 0x02 base)).map (fun t => t.pc) =
      some 0x204 := by decide

/-- Vector F18. -/
theorem test_sne_reg_same_register :
    (afterWord 0x9110 (base)).map (fun t => t.pc) =
      some 0x202 := by decide

/-- Vector A1. -/
theorem test_ld_imm :
    (afterWord 0x6A42 (base)).map (fun t => (t.reg 0xA, t.reg VF)) =
      some (0x42, 0x55) := by decide

/-- Vector A2. -/
theorem test_ld_imm_VF :
    (afterWord 0x6F01 (base)).map (fun t => t.reg VF) =
      some 0x01 := by decide

/-- Vector A4. -/
theorem test_add_imm_wraps :
    (afterWord 0x7A01 (base.setReg 0xA 0xFF)).map (fun t => (t.reg 0xA, t.reg VF)) =
      some (0x00, 0x55) := by decide

/-- Vector A5. -/
theorem test_add_imm_VF :
    (afterWord 0x7F01 (base.setReg VF 0xFF)).map (fun t => t.reg VF) =
      some 0x00 := by decide

/-- Vector A6. -/
theorem test_ld_reg :
    (afterWord 0x8120 (base.setReg 2 0x5A)).map (fun t => (t.reg 1, t.reg 2, t.reg VF)) =
      some (0x5A, 0x5A, 0x55) := by decide

/-- Vector A7. -/
theorem test_or :
    (afterWord 0x8121 (regs2 1 0x0F 2 0xF0 base)).map (fun t => (t.reg 1, t.reg VF)) =
      some (0xFF, 0x55) := by decide

/-- Vector A8. -/
theorem test_and :
    (afterWord 0x8122 (regs2 1 0x3C 2 0x0F base)).map (fun t => (t.reg 1, t.reg VF)) =
      some (0x0C, 0x55) := by decide

/-- Vector A9. -/
theorem test_xor :
    (afterWord 0x8123 (regs2 1 0xFF 2 0x0F base)).map (fun t => (t.reg 1, t.reg VF)) =
      some (0xF0, 0x55) := by decide

/-- Vector A11. -/
theorem test_add_carry :
    (afterWord 0x8124 (regs2 1 0xFF 2 0x01 base)).map (fun t => (t.reg 1, t.reg VF)) =
      some (0x00, 0x01) := by decide

/-- Vector A15. -/
theorem test_add_into_VF :
    (afterWord 0x8FE4 (regs2 VF 0xFF 0xE 0x01 base)).map (fun t => t.reg VF) =
      some 0x01 := by decide

/-- Vector A18. -/
theorem test_sub_borrow :
    (afterWord 0x8125 (regs2 1 0x03 2 0x05 base)).map (fun t => (t.reg 1, t.reg VF)) =
      some (0xFE, 0x00) := by decide

/-- Vector A21. -/
theorem test_sub_into_VF :
    (afterWord 0x8F15 (regs2 VF 0x10 1 0x20 base)).map (fun t => t.reg VF) =
      some 0x00 := by decide

/-- Vector A25. -/
theorem test_shr_ignores_y :
    (afterWord 0x8126 (regs2 1 0x01 2 0xFF base)).map (fun t => (t.reg 1, t.reg VF)) =
      some (0x00, 0x01) := by decide

/-- Vector A26. -/
theorem test_shr_VF :
    (afterWord 0x8F06 (base.setReg VF 0x03)).map (fun t => t.reg VF) =
      some 0x01 := by decide

/-- Vector A27. -/
theorem test_subn :
    (afterWord 0x8127 (regs2 1 0x03 2 0x05 base)).map (fun t => (t.reg 1, t.reg VF)) =
      some (0x02, 0x01) := by decide

/-- Vector A28. -/
theorem test_subn_borrow :
    (afterWord 0x8127 (regs2 1 0x05 2 0x03 base)).map (fun t => (t.reg 1, t.reg VF)) =
      some (0xFE, 0x00) := by decide

/-- Vector A30. -/
theorem test_shl :
    (afterWord 0x810E (base.setReg 1 0x81)).map (fun t => (t.reg 1, t.reg VF)) =
      some (0x02, 0x01) := by decide

/-- Vector A33. -/
theorem test_shl_VF :
    (afterWord 0x8F0E (base.setReg VF 0x80)).map (fun t => t.reg VF) =
      some 0x01 := by decide

/-- Vector M1. -/
theorem test_ld_I :
    (afterWord 0xA123 (base)).map (fun t => t.I) =
      some 0x0123 := by decide

/-- Vector F20. -/
theorem test_jp_V0_past_memory :
    (afterWord 0xBFFF (base.setReg 0 0xFF)).map (fun t => t.pc) =
      some 0x10FE := by decide

/-- Vector F21. -/
theorem test_jp_V0_adds_V0_not_Vx :
    (afterWord 0xB201 (base.setReg 5 0x40)).map (fun t => t.pc) =
      some 0x201 := by decide

/-- Vector A34. -/
theorem test_rnd :
    (afterWord 0xC30F ({ base with injected := [0xA5] })).map (fun t => (t.reg 3, t.injected)) =
      some (0x05, []) := by decide

/-- Vector A36. -/
theorem test_rnd_VF :
    (afterWord 0xCFFF ({ base with injected := [0x3C] })).map (fun t => t.reg VF) =
      some 0x3C := by decide

/-- Vector G6. -/
theorem test_drw_collision :
    (afterWord 0xD011 ((((base.setI 0x300).writeBytes 0x300 [0xC0]).setDisp (setPixel blankDisplay 0 0 true)))).map (fun t => (pixel t.disp 0 0, pixel t.disp 0 1, t.reg VF)) =
      some (false, true, 0x01) := by decide

/-- Vector W4: the corner cells of the two wrapped rows. -/
theorem test_drw_wraps :
    (afterWord 0xD012 (((regs2 0 0x3E 1 0x1F base).setI 0x300).writeBytes 0x300 [0xFF, 0xFF])).map (fun t => (pixel t.disp 31 62, pixel t.disp 31 61, pixel t.disp 0 5, pixel t.disp 0 6, t.reg VF)) =
      some (true, false, true, false, 0x00) := by decide

/-- Vector K3. -/
theorem test_skp_low_nibble :
    (afterWord 0xE59E ((base.setReg 5 0x17).setKey 7 true)).map (fun t => t.pc) =
      some 0x204 := by decide

/-- Vector K2. -/
theorem test_skp_not_pressed :
    (afterWord 0xE59E (base.setReg 5 0x07)).map (fun t => t.pc) =
      some 0x202 := by decide

/-- Vector K4. -/
theorem test_sknp_not_pressed :
    (afterWord 0xE5A1 (base.setReg 5 0x07)).map (fun t => t.pc) =
      some 0x204 := by decide

/-- Vector K5. -/
theorem test_sknp_pressed :
    (afterWord 0xE5A1 ((base.setReg 5 0x07).setKey 7 true)).map (fun t => t.pc) =
      some 0x202 := by decide

/-- Vector K6. -/
theorem test_ld_Vx_DT :
    (afterWord 0xF307 (base.setDT 0x2A)).map (fun t => (t.reg 3, t.DT)) =
      some (0x2A, 0x2A) := by decide

/-- Vector K7. -/
theorem test_ld_Vx_K :
    (afterWord 0xF30A (base)).map (fun t => (t.wait, t.pc)) =
      some (some 3, 0x202) := by decide

/-- Vector K11: a held key does not end the wait. -/
theorem test_ld_Vx_K_held_key :
    (afterWord 0xF00A (base.setKey 4 true)).map (fun t => (t.wait, t.reg 0)) =
      some (some 0, 0x00) := by decide

/-- Vector K12. -/
theorem test_ld_DT_Vx :
    (afterWord 0xF015 (base.setReg 0 0x07)).map (fun t => t.DT) =
      some 0x07 := by decide

/-- Vector K13. -/
theorem test_ld_ST_Vx :
    (afterWord 0xF118 (base.setReg 1 0x3C)).map (fun t => t.ST) =
      some 0x3C := by decide

/-- Vector M3. -/
theorem test_add_I_wraps :
    (afterWord 0xF01E ((base.setReg 0 0x02).setI 0xFFFF)).map (fun t => t.I) =
      some 0x0001 := by decide

/-- Vector M4. -/
theorem test_add_I_VF :
    (afterWord 0xFF1E ((base.setReg VF 0x10).setI 0x0100)).map (fun t => (t.I, t.reg VF)) =
      some (0x0110, 0x10) := by decide

/-- Vector M6. -/
theorem test_ld_F_low_nibble :
    (afterWord 0xF529 (base.setReg 5 0x1A)).map (fun t => t.I) =
      some 0x0032 := by decide

/-- Vector M7. -/
theorem test_ld_F_last_glyph :
    (afterWord 0xF529 (base.setReg 5 0x0F)).map (fun t => t.I) =
      some 0x004B := by decide

/-- Vector M8. -/
theorem test_ld_B :
    (afterWord 0xF233 ((base.setReg 2 0xFE).setI 0x300)).map (fun t => (t.mem.read 0x300, t.mem.read 0x301, t.mem.read 0x302, t.I)) =
      some (0x02, 0x05, 0x04, 0x300) := by decide

/-- Vector M13. -/
theorem test_ld_B_out_of_range :
    (afterWord 0xF233 ((base.setReg 2 0xFE).setI 0xFFE)).map (fun t => (t.fault, t.mem.read 0xFFE)) =
      some (some ⟨.memoryBounds, 0x200, some 0xF233⟩, 0x00) := by decide

/-- Vector M14. -/
theorem test_store_regs :
    (afterWord 0xF255 (((regs2 0 0x11 1 0x22 base).setReg 2 0x33).setI 0x400)).map (fun t => (t.mem.read 0x400, t.mem.read 0x401, t.mem.read 0x402, t.mem.read 0x403, t.I)) =
      some (0x11, 0x22, 0x33, 0x00, 0x400) := by decide

/-- Vector M16. -/
theorem test_store_regs_out_of_range :
    (afterWord 0xFF55 (base.setI 0xFF1)).map (fun t => (t.fault, t.mem.read 0xFFF)) =
      some (some ⟨.memoryBounds, 0x200, some 0xFF55⟩, 0x00) := by decide

/-- Vector M19. -/
theorem test_load_regs_all :
    (afterWord 0xFF65 ((base.setI 0x500).writeBytes 0x50F [0x99])).map (fun t => (t.reg VF, t.reg 0xE, t.I)) =
      some (0x99, 0x00, 0x500) := by decide

/-- Vector M21. -/
theorem test_load_regs_out_of_range :
    (afterWord 0xF165 (base.setI 0xFFF)).map (fun t => (t.fault, t.reg 0)) =
      some (some ⟨.memoryBounds, 0x200, some 0xF165⟩, 0x00) := by decide

/-! Host transactions. -/

/-- Vector K9. -/
theorem test_key_press_ends_wait :
    ((base.setWait (some 3)).keyPress 0xB).reg 3 = 0x0B ∧ ((base.setWait (some 3)).keyPress 0xB).wait = none ∧
      ((base.setWait (some 3)).keyPress 0xB).key[0xB] = false := by decide

/-- Vector K10. -/
theorem test_key_press_without_wait :
    base.keyPress 4 = base := by decide

/-- Vectors K14 and K15. -/
theorem test_tick :
    ((base.setST 0x05).tick.DT, (base.setST 0x05).tick.ST) = (0x00, 0x04) ∧ (base.setDT 0x01).tick.DT = 0x00 := by decide

/-- Vector K16. -/
theorem test_tick_while_faulted :
    ((base.setDT 2).setFault (some ⟨.unknownOpcode, 0x200, some 0⟩)).tick.DT = 0x01 := by decide

/-- Program P1: the image A2 00 60 05 stands at 0x200, big-endian (W6). -/
theorem test_load :
    ((State.reset.load (.bytes [0xA2, 0x00, 0x60, 0x05])).2.mem.read 0x200, (State.reset.load (.bytes [0xA2, 0x00, 0x60, 0x05])).2.fetchWord) =
      (0xA2, some 0xA200) := by decide

/-- Vector H3. -/
theorem test_load_unavailable :
    State.reset.load .unavailable = (.sourceUnavailable, State.reset) := by decide

/-- Vector H2: an image of 3585 bytes. -/
theorem test_load_too_large : State.reset.load (.bytes (List.replicate 3585 0xAA)) = (.imageTooLarge, State.reset) := by
  rw [State.load, if_pos]
  rw [List.length_replicate]
  decide

/-- Vector G10's font: Reset with the conventional FONT_IMAGE (K9) puts glyph 0 at 0x000 and the last byte at 0x04F. -/
theorem test_reset_font :
    ((State.resetWith Config.conventionalFont).mem.read 0, (State.resetWith Config.conventionalFont).mem.read 1,
      (State.resetWith Config.conventionalFont).mem.read 0x4F) = (0xF0, 0x90, 0x80) := by decide

/-! Witnesses: for each statement with hypotheses, states and operands that meet them together. -/

theorem witness_EncodeOfDecodedWordIsTheWord : decodeWord 0x81F6 = .ok (.shr 1 0xF) := rfl

theorem witness_OpcodeTableRowSelectsItsInstruction : (⟨"FX65", [⟨7, 0, 0x65⟩, ⟨15, 12, 0xF⟩]⟩ : Row) ∈ opcodeTable ∧
    (⟨"FX65", [⟨7, 0, 0x65⟩, ⟨15, 12, 0xF⟩]⟩ : Row).selects 0xFF65 = true := by decide

/-- Each refused family at the neighbours of a legal word. -/
theorem witness_IllegalWordsAreExactlyThoseListed :
    (bits 0x00E1 15 12 = 0x0 ∧ bits 0x00E1 11 0 ≠ 0x0E0 ∧ bits 0x00E1 11 0 ≠ 0x0EE) ∧
    (bits 0x5121 15 12 = 0x5 ∧ bits 0x5121 3 0 ≠ 0) ∧
    (bits 0x812F 15 12 = 0x8 ∧ bits 0x812F 3 0 ∈ [0x8, 0x9, 0xA, 0xB, 0xC, 0xD, 0xF]) ∧
    (bits 0x912F 15 12 = 0x9 ∧ bits 0x912F 3 0 ≠ 0) ∧
    (bits 0xE19F 15 12 = 0xE ∧ bits 0xE19F 7 0 ∉ [0x9E, 0xA1]) ∧
    (bits 0xF166 15 12 = 0xF ∧ bits 0xF166 7 0 ∉ [0x07, 0x0A, 0x15, 0x18, 0x1E, 0x29, 0x33, 0x55, 0x65]) := by decide

/-- The last address a word can be fetched from. -/
def atFFE : State := State.reset.setPc 0xFFE |>.writeBytes 0xFFE [0x60, 0x07]

theorem witness_StepRunsTheDecodedInstruction : atFFE.running ∧ atFFE.pc.toNat ≤ 0xFFE ∧
    bits 0x6007 15 8 = (atFFE.mem.read atFFE.pc.toNat).toNat ∧ bits 0x6007 7 0 = (atFFE.mem.read (atFFE.pc.toNat + 1)).toNat ∧
    decodeWord 0x6007 = .ok (.ldImm 0 7) := ⟨⟨rfl, rfl⟩, by decide, by decide, by decide, rfl⟩

/-- Each of the three answers: Ok, Hold, Faulted. -/
theorem witness_StepAnswersOkHoldOrFaulted :
    atFFE.hostStep.1 = .ok ∧ (State.reset.setWait (some 0)).hostStep.1 = .hold ∧
    State.reset.hostStep.1 = .faulted ⟨.unknownOpcode, 0x200, some 0⟩ := by decide

/-- The record the core holds after vector E1. -/
def e1 : FaultRecord := ⟨.unknownOpcode, 0x200, some 0⟩

/-- The state after vector E1. -/
def afterE1 : State := (State.reset.setPc 0x202).setFault (some e1)

theorem witness_StepGatesOnRecordedFaultThenWait :
    afterE1.fault = some e1 ∧ ((State.reset.setWait (some 15)).fault = none ∧ (State.reset.setWait (some 15)).wait = some 15) := by
  decide

/-- Running cores: one that completes, one whose fetch is out of range, one with an illegal word, one whose instruction faults. -/
theorem witness_StepFaultIsPreciseAndHasAListedCause :
    (atFFE.running ∧ atFFE.fetchWord = some 0x6007 ∧ decodeWord 0x6007 = .ok (.ldImm 0 7)) ∧
    ((State.reset.setPc 0xFFF).running ∧ 0xFFE < (State.reset.setPc 0xFFF).pc.toNat) ∧
    (State.reset.running ∧ State.reset.fetchWord = some 0 ∧ decodeWord 0 = .error (.unknownOpcode 0)) ∧
    ((placeWord State.reset 16 0x00EE).running ∧ (placeWord State.reset 16 0x00EE).fetchWord = some 0x00EE ∧
      faultsWith (placeWord State.reset 16 0x00EE) .ret .stackUnderflow) :=
  ⟨⟨⟨rfl, rfl⟩, by decide, rfl⟩, ⟨⟨rfl, rfl⟩, by decide⟩, ⟨⟨rfl, rfl⟩, by decide, rfl⟩, ⟨⟨rfl, rfl⟩, by decide, rfl, rfl⟩⟩

/-- Each fault condition at its first value, and no condition one step before it. -/
theorem witness_InstructionFaultsExactlyOnItsCondition :
    State.reset.fault = none ∧
    faultsWith State.reset .ret .stackUnderflow ∧ faultsWith (stackOf 16 0 0 State.reset) (.call 0x200) .stackOverflow ∧
    faultsWith (State.reset.setI 0xFFF) (.drw 0 1 2) .memoryBounds ∧ faultsWith (State.reset.setI 0xFFE) (.ldB 0) .memoryBounds ∧
    faultsWith (State.reset.setI 0xFF1) (.storeRegs 15) .memoryBounds ∧
    faultsWith (State.reset.setI 0x1000) (.loadRegs 0) .memoryBounds := by
  simp only [faultsWith, accessOutside]
  decide

theorem witness_no_fault_just_before_the_condition : ∀ k,
    ¬ faultsWith (stackOf 1 0 0 State.reset) .ret k ∧ ¬ faultsWith (stackOf 15 0 0 State.reset) (.call 0x200) k ∧
    ¬ faultsWith (State.reset.setI 0xFFE) (.drw 0 1 2) k ∧ ¬ faultsWith (State.reset.setI 0xFFFF) (.drw 0 1 0) k ∧
    ¬ faultsWith (State.reset.setI 0xFFD) (.ldB 0) k ∧ ¬ faultsWith (State.reset.setI 0xFF0) (.storeRegs 15) k ∧
    ¬ faultsWith (State.reset.setI 0xFFF) (.loadRegs 0) k := by
  intro k
  simp only [faultsWith, accessOutside]
  refine ⟨?_, ?_, ?_, ?_, ?_, ?_, ?_⟩ <;> (rintro ⟨-, h⟩; revert h; decide)

/-- A state of the invariant at its bounds: `pc` at 0x10FE and the top stack entry at 0x1000. -/
def atBounds : State := (stackOf 16 15 0x1000 State.reset).setPc 0x10FE

theorem witness_InvariantKeptByEveryStep : atBounds.Inv ∧ (nextOf (step atBounds)).isSome = true :=
  ⟨⟨by decide, by decide, by decide, fun h => absurd rfl h, fun _ h => by cases h⟩, by decide⟩

/-- The invariant of a faulted core. -/
theorem witness_invariant_of_a_faulted_core : afterE1.Inv :=
  ⟨by decide, by decide, by decide, fun _ => rfl, fun _ h => by cases h; exact ⟨by decide, by decide, rfl⟩⟩

/-- A state of the invariant at its bounds, and a schedule: load the two bytes of `1200`, then a Step. -/
theorem witness_InvariantHoldsInEveryReachableState : atBounds.Inv ∧
    Reachable Config.defaultFont
      (runSchedule Config.defaultFont [.load (.bytes [0x12, 0x00]), .step] (State.resetWith Config.defaultFont)) :=
  ⟨witness_InvariantKeptByEveryStep.1, _, rfl⟩

/-- Two states that differ in an element FX07 neither reads nor writes. -/
theorem witness_OutcomeDependsOnlyOnTheMatrixRow :
    State.reset.mem.wf = true ∧ (State.reset.setST 5).mem.wf = true ∧
    (∀ e ∈ reads (.ldVxDT 3) ++ writes (.ldVxDT 3), e.same State.reset (State.reset.setST 5)) ∧
    State.reset ≠ State.reset.setST 5 := by
  refine ⟨by decide, by decide, ?_, by decide⟩
  intro e he
  simp only [reads, writes, List.cons_append, List.nil_append, List.mem_cons, List.not_mem_nil, or_false] at he
  rcases he with rfl | rfl
  · rfl
  · show ∀ r : Reg, (State.reset.setST 5).reg r = State.reset.reg r
    decide

/-- ANNN, FX1E and FX29 change I; FX1E takes it from 0xFFF to 0x1000; the least I outside memory, with N = 1. -/
theorem witness_AddressRegisterWrittenOnlyByItsThreeInstructions :
    (nextOf (exec (.ldI 1) State.reset)).map (fun t => decide (t.I ≠ State.reset.I)) = some true ∧
    (nextOf (exec (.addI 0) ((State.reset.setReg 0 1).setI 0xFFF))).map (fun t => t.I) = some 0x1000 ∧
    (nextOf (exec (.ldF 0) (State.reset.setReg 0 1))).map (fun t => decide (t.I ≠ State.reset.I)) = some true ∧
    0xFFF < (State.reset.setI 0x1000).I.toNat ∧ (1 : Fin 16) ≠ 0 := by decide

theorem witness_TimersHaveTheirWritersAndReaders :
    (nextOf (exec (.ldVxDT 0) (State.reset.setDT 9))).map (fun t => (t.DT, t.ST)) = some (9, 0) ∧
    (∀ x, Instr.cls ≠ .ldDTVx x) ∧ (∀ x, Instr.cls ≠ .ldSTVx x) ∧ ∀ x, Instr.ldDTVx 0 ≠ .ldVxDT x := by decide

theorem witness_KeypadWrittenOnlyBySetKey :
    (∀ x, Instr.ldVxK 0 ≠ .skp x ∧ Instr.ldVxK 0 ≠ .sknp x) ∧ (14 : Fin 16) ≠ 15 ∧
    Transaction.keyPress 3 ≠ .reset ∧ ∀ k p, Transaction.keyPress 3 ≠ .setKey k p := by decide

/-- 00E0 changes a display with a lit pixel; DXYN lights one; 00E0 is no DXYN; Tick is neither Step nor Reset. -/
theorem witness_DisplayWrittenOnlyByClearAndDraw :
    (nextOf (exec .cls (State.reset.setDisp (setPixel blankDisplay 0 0 true)))).map
      (fun t => decide (t.disp ≠ setPixel blankDisplay 0 0 true)) = some true ∧
    (∀ x y n, Instr.cls ≠ .drw x y n) ∧ Transaction.tick ≠ .reset ∧ Transaction.tick ≠ .step := by
  refine ⟨by decide, fun _ _ _ h => ?_, by decide, by decide⟩
  cases h

/-- Depth 1, depth 16, depth 0. -/
theorem witness_ReturnPopsThePcOrUnderflows :
    (stackOf 1 0 0x456 State.reset).sp.val = (0 : Fin 16).val + 1 ∧ (stackOf 16 15 0x456 State.reset).sp.val = (15 : Fin 16).val + 1 ∧
    State.reset.sp.val = 0 := by decide

theorem witness_JumpSetsThePc : State.reset.running ∧ (0xFFF : Addr12) = 0xFFF := ⟨⟨rfl, rfl⟩, rfl⟩

/-- Depth 0, depth 15, depth 16. -/
theorem witness_CallPushesTheAdvancedPcOrOverflows :
    State.reset.sp.val = (0 : Fin 16).val ∧ (stackOf 15 0 0 State.reset).sp.val = (15 : Fin 16).val ∧
    (stackOf 16 0 0 State.reset).sp.val = 16 ∧ (1 : Fin 16) ≠ 0 := by decide

/-- Vector W2, with the stack one below its capacity. -/
def callRet : State := (((stackOf 15 0 0 State.reset).writeBytes 0x200 [0x23, 0x00]).writeBytes 0x300 [0x00, 0xEE])

theorem witness_CallThenReturnIsARoundTrip :
    callRet.running ∧ callRet.sp.val < 16 ∧ callRet.fetchWord = some 0x2300 ∧ decodeWord 0x2300 = .ok (.call 0x300) ∧
    (0x300 : Addr12).toNat ≤ 0xFFE ∧ callRet.mem.read (0x300 : Addr12).toNat = 0x00 ∧
    callRet.mem.read ((0x300 : Addr12).toNat + 1) = 0xEE :=
  ⟨⟨rfl, rfl⟩, by decide, by decide, rfl, by decide, by decide, by decide⟩

/-- A core past a skip fetched at 0xFFE, with x[1] = 7 and NN = 7, and NN = 8. -/
theorem witness_SkipOnImmediateAddsTwoToThePc :
    ((State.reset.setPc 0x1000).setReg 1 7).running ∧ ((State.reset.setPc 0x1000).setReg 1 7).pc = 0x1000 ∧
    ((State.reset.setPc 0x1000).setReg 1 7).reg 1 = 7 ∧ ((State.reset.setPc 0x1000).setReg 1 7).reg 1 ≠ 8 :=
  ⟨⟨rfl, rfl⟩, rfl, by decide, by decide⟩

theorem witness_SkipOnRegistersAddsTwoToThePc : (VF : Reg) = VF ∧ (State.reset.setReg 1 1).reg 1 ≠ (State.reset.setReg 1 1).reg 2 := by
  decide

/-- Vector F20: the sum 0x10FE; and the least sum the next fetch rejects, 0xFFF. -/
theorem witness_JumpPlusV0IsTheExactSum : State.reset.running ∧
    (nextOf (exec (.jpV0 0xFFF) (State.reset.setReg 0 0xFF))).map (fun t => decide (0xFFF ≤ t.pc.toNat)) = some true ∧
    (nextOf (exec (.jpV0 0xFFF) State.reset)).map (fun t => t.pc.toNat) = some 0xFFF := ⟨⟨rfl, rfl⟩, by decide, by decide⟩

theorem witness_AssignCopiesTheRegister : (VF : Reg) = VF ∧ (0 : Reg) ≠ 1 := by decide

/-- X other than F; a sum of exactly 256 and one of 255. -/
theorem witness_AddWritesSumThenCarry : (0xE : Reg) ≠ VF ∧
    256 ≤ ((regs2 1 0xFF 2 0x01 base).reg 1).toNat + ((regs2 1 0xFF 2 0x01 base).reg 2).toNat ∧
    ¬ 256 ≤ ((regs2 1 0xFE 2 0x01 base).reg 1).toNat + ((regs2 1 0xFE 2 0x01 base).reg 2).toNat := by decide

/-- X other than F; equal operands, and a minuend one below the subtrahend. -/
theorem witness_SubtractsWriteDifferenceThenNoBorrow : (0xE : Reg) ≠ VF ∧
    ((regs2 1 0x07 2 0x07 base).reg 2).toNat ≤ ((regs2 1 0x07 2 0x07 base).reg 1).toNat ∧
    ¬ ((regs2 1 0x06 2 0x07 base).reg 2).toNat ≤ ((regs2 1 0x06 2 0x07 base).reg 1).toNat := by decide

theorem witness_ShiftsMoveVxByOneAndKeepTheBitOut : (0xE : Reg) ≠ VF := by decide

theorem witness_LogicInstructionsAreBitwiseAndLeaveVF : (7 : Nat) < 8 := by decide

/-- An injected draw; no injected draw; NN = 0. -/
theorem witness_RandomTakesOneDrawAndMasksIt :
    ({ State.reset with injected := [0xA5, 0x01] } : State).injected = 0xA5 :: [0x01] ∧ State.reset.injected = [] ∧
    (0x00 : Byte) = 0 := by decide

theorem witness_FontAddressPointsAtTheGlyphBytes : (4 : Nat) < 5 := by decide

/-- I at the last address that fits, and one past it. -/
theorem witness_BcdStoresThreeDigits : State.reset.mem.wf = true ∧ (State.reset.setI 0xFFD).I.toNat + 2 ≤ 0xFFF ∧
    0xFFF < (State.reset.setI 0xFFE).I.toNat + 2 := by decide

/-- A whole block at the end of memory, and one past it; one register at 0xFFF. -/
theorem witness_StoreRegistersWritesTheBlockAtI : State.reset.mem.wf = true ∧
    (State.reset.setI 0xFF0).I.toNat + (15 : Reg).val ≤ 0xFFF ∧ (State.reset.setI 0xFFF).I.toNat + (0 : Reg).val ≤ 0xFFF ∧
    0xFFF < (State.reset.setI 0xFF1).I.toNat + (15 : Reg).val ∧ (15 : Reg) ≤ 15 := by decide

theorem witness_LoadRegistersReadsTheBlockAtI :
    (State.reset.setI 0xFF0).I.toNat + (15 : Reg).val ≤ 0xFFF ∧ 0xFFF < (State.reset.setI 0x1000).I.toNat + (0 : Reg).val ∧
    (0 : Reg) ≤ 14 ∧ (14 : Reg) < 15 := by decide

/-- Vector M22: FX55 stores V0 and V1 at the next word; and FX33 stores its digits there. -/
theorem witness_StoredBytesAreFetchedByTheNextStep :
    ((State.reset.setPc 0x202).setI 0x202).mem.wf = true ∧ (1 : Reg).val = (0 : Reg).val + 1 ∧ (1 : Reg) ≤ 1 ∧
    ((State.reset.setPc 0x202).setI 0x202).I.toNat + (1 : Reg).val ≤ 0xFFF ∧
    ((State.reset.setPc 0x202).setI 0x202).pc.toNat = ((State.reset.setPc 0x202).setI 0x202).I.toNat + (0 : Reg).val ∧
    ((State.reset.setPc 0x202).setI 0x202).I.toNat + 2 ≤ 0xFFF := by decide

/-- A sprite byte 80 at 0xFFF, one row, on a lit display cell (0, 0) and on an unlit one. -/
def sprite80 : State := ((State.reset.setI 0xFFF).writeBytes 0xFFF [0x80]).setDisp (setPixel blankDisplay 0 0 true)

/-- N = 0 with any I; one row at 0xFFF, in range; two rows, out of range; a covered lit cell; a cell not covered. -/
theorem witness_DrawFlipsExactlyTheSpriteCells :
    sprite80.I.toNat + (1 : Fin 16).val - 1 ≤ 0xFFF ∧ ((2 : Fin 16) ≠ 0 ∧ 0xFFF < sprite80.I.toNat + (2 : Fin 16).val - 1) ∧
    (spriteCovers sprite80 1 0 0 0 0 ∧ pixel sprite80.disp 0 0 = true) ∧ ¬ spriteCovers sprite80 1 0 0 1 0 ∧
    ¬ ∃ py px, spriteCovers sprite80 0 0 0 py px ∧ pixel sprite80.disp py px = true := by
  refine ⟨by decide, by decide, ⟨⟨0, 0, by decide, by decide, rfl, rfl, by decide⟩, by decide⟩, ?_, ?_⟩
  · rintro ⟨r, c, hr, -, hy, -⟩
    have : r = 0 := by omega
    subst this
    exact absurd hy (by decide)
  · rintro ⟨_, _, ⟨r, _, hr, _⟩, _⟩
    exact absurd hr (Nat.not_lt_zero r)

/-- The same sprite on a blank display (an unlit covered cell) and on `sprite80` (every covered cell lit). -/
theorem witness_SpriteDrawnTwiceRestoresTheDisplay :
    sprite80.I.toNat + (1 : Fin 16).val - 1 ≤ 0xFFF ∧ (sprite80.reg 0).toNat % 64 = (sprite80.reg 1).toNat % 64 ∧
    (spriteCovers (sprite80.setDisp blankDisplay) 1 0 0 0 0 ∧ pixel (sprite80.setDisp blankDisplay).disp 0 0 = false) ∧
    (∀ py px, spriteCovers sprite80 1 0 0 py px → pixel sprite80.disp py px = true) := by
  refine ⟨by decide, by decide, ⟨⟨0, 0, by decide, by decide, rfl, rfl, by decide⟩, by decide⟩, ?_⟩
  rintro py px ⟨r, c, hr, hc, hy, hx, hb⟩
  have hr0 : r = 0 := by omega
  subst hr0
  have hbit : ∀ c < 8, (sprite80.mem.read (sprite80.I.toNat + 0)).getLsbD (7 - c) = true → c = 0 := by decide
  have hc0 : c = 0 := hbit c hc hb
  subst hc0
  have hy0 : py = 0 := Fin.ext hy
  have hx0 : px = 0 := Fin.ext hx
  subst hy0 hx0
  decide

/-- The register value 17 selects key 7. -/
theorem witness_KeySkipsTestTheKeyOfTheLowNibble : (7 : Fin 16).val = ((State.reset.setReg 5 0x17).reg 5).toNat % 16 := by decide

/-- One Tick after FX15 wrote 1, the least value a Tick makes smaller. -/
theorem witness_ReadDelayTimerCopiesDT : 0 < 1 ∧ (State.reset.setReg 5 1).reg 5 ≠ 0 := by decide

theorem witness_SetTimersCopyVx : State.reset.reg 0xF = 0 := by decide

theorem witness_WaitForKeyHoldsTheStream : State.reset.fault = none := rfl

theorem witness_KeyPressFillsTheWaitingRegisterOnce :
    (State.reset.setWait (some VF)).wait = some VF ∧ State.reset.wait = none := by decide

/-- A Step on F30A starts a wait; a waiting core, and a schedule of Steps, Ticks, SetKeys and Loads; the same without SetKey and
Load. -/
theorem witness_WaitEndsOnlyByKeyPressOrReset :
    (placeWord State.reset 16 0xF30A).wait = none ∧
    (transact Config.defaultFont .step (placeWord State.reset 16 0xF30A)).2.wait = some 3 ∧
    (State.reset.setWait (some VF)).wait = some VF ∧
    (∀ t ∈ [Transaction.step, .tick, .setKey 7 true, .load .unavailable], t ≠ .reset ∧ ∀ k, t ≠ .keyPress k) ∧
    (∀ t ∈ [Transaction.step, .tick], (∀ k p, t ≠ .setKey k p) ∧ ∀ image, t ≠ .load image) := by
  refine ⟨by decide, by decide, by decide, by decide, ?_⟩
  intro t ht
  simp only [List.mem_cons, List.not_mem_nil, or_false] at ht
  rcases ht with rfl | rfl
  · exact ⟨fun _ _ => Transaction.noConfusion, fun _ => Transaction.noConfusion⟩
  · exact ⟨fun _ _ => Transaction.noConfusion, fun _ => Transaction.noConfusion⟩

theorem witness_RecordedFaultStaysUntilReset :
    afterE1.fault = some e1 ∧ afterE1.wait = none ∧ ∀ t ∈ [Transaction.step, .tick, .keyPress 3], t ≠ .reset := by decide

/-- The empty image, an image of exactly 0xE00 bytes, and one byte more. -/
theorem witness_LoadWritesTheImageOrNothing : State.reset.mem.wf = true ∧ ([] : List Byte).length ≤ 0xE00 ∧
    (List.replicate 0xE00 (0xAA : Byte)).length ≤ 0xE00 ∧ 0xE00 < (List.replicate 0xE01 (0xAA : Byte)).length := by
  simp only [List.length_replicate]
  decide

/-- Both ways to a reset state. -/
theorem witness_ResetGivesEveryElementItsResetValue :
    transact Config.conventionalFont .reset afterE1 = (.unit, afterE1.hostReset Config.conventionalFont) ∧
    State.reset = State.resetWith Config.defaultFont := ⟨rfl, rfl⟩

/-- A `pc` from which a word can be fetched, and one from which it cannot. -/
theorem witness_PlacedWordIsWhatTheNextStepRuns : (State.reset.setPc 0xFFE).mem.wf = true ∧ (State.reset.setPc 0xFFE).pc.toNat ≤ 0xFFE ∧
    ¬ (State.reset.setPc 0xFFF).pc.toNat ≤ 0xFFE := by decide

end Sys2Proof.Tests
end

section
/-! PROOFS, family 10_state.md. What an instruction leaves unchanged, what it depends on, and what a Step can do: the shared
layer, and then the obligations on the timers, the keypad and the fetch. -/

namespace Sys2Proof.Machine

/-! Frames: every instruction answers a next state and keeps what is outside its row of the matrix (R31). -/

theorem sameBut_skipIf (s : State) (c : Bool) : SameBut [.pc] s (s.skipIf c) := by
  rw [State.skipIf_eq]
  exact sameBut_setPc s _

/-- Fault entry answers a next state and writes the fault element alone (R122). -/
theorem raiseIn_sameBut (k : FaultKind) (i : Instr) (s : State) : ∃ t, raiseIn k i s = .next t ∧ SameBut [.fault] s t :=
  ⟨_, raiseIn_eq k i s, sameBut_setFault s _⟩

/-- The frame of a result is weakened to a larger list of elements. -/
theorem next_sameBut_mono {r : Result} {c d : List Elem} {s : State} (h : ∃ t, r = .next t ∧ SameBut c s t) (hcd : c ⊆ d) :
    ∃ t, r = .next t ∧ SameBut d s t := by
  obtain ⟨t, hr, ht⟩ := h
  exact ⟨t, hr, ht.mono hcd⟩

theorem execRet_sameBut (s : State) : ∃ t, execRet s = .next t ∧ SameBut [.sp, .pc, .fault] s t := by
  by_cases hsp : 0 < s.sp.val
  · obtain ⟨t, ht, -, hst⟩ := pop_above hsp
    refine ⟨t.setPc _, by rw [execRet, ht], (hst.mono ?_).trans ((sameBut_setPc t _).mono ?_)⟩ <;> simp
  · rw [execRet, State.pop_empty (by omega)]
    exact next_sameBut_mono (raiseIn_sameBut _ _ s) (by simp)

theorem execCall_sameBut (nnn : Addr12) (s : State) :
    ∃ t, execCall nnn s = .next t ∧ SameBut [.stack, .sp, .pc, .fault] s t := by
  by_cases hsp : s.sp.val < 16
  · obtain ⟨t, ht, -, -, hst⟩ := push_below s.pc hsp
    refine ⟨t.setPc _, by rw [execCall, ht], (hst.mono ?_).trans ((sameBut_setPc t _).mono ?_)⟩ <;> simp
  · rw [execCall, State.push_full _ (by omega)]
    exact next_sameBut_mono (raiseIn_sameBut _ _ s) (by simp)

theorem execRnd_sameBut (x : Reg) (nn : Byte) (s : State) :
    ∃ t, execRnd x nn s = .next t ∧ SameBut [.x, .injected, .drawCount] s t := by
  refine ⟨_, rfl, ((sameBut_takeDraw s).mono ?_).trans ((sameBut_setReg _ x _).mono ?_)⟩ <;> simp

theorem execDrw_sameBut (x y : Reg) (n : Fin 16) (s : State) :
    ∃ t, execDrw x y n s = .next t ∧ SameBut [.x, .disp, .fault] s t := by
  rw [execDrw]
  split
  · refine ⟨_, rfl, ((sameBut_setReg s VF _).mono ?_).trans
      (((sameBut_setDisp _ _).mono ?_).trans ((sameBut_setReg _ VF _).mono ?_))⟩ <;> simp
  · exact next_sameBut_mono (raiseIn_sameBut _ _ s) (by simp)

theorem execLdB_sameBut (x : Reg) (s : State) : ∃ t, execLdB x s = .next t ∧ SameBut [.mem, .fault] s t := by
  rw [execLdB]
  split
  · exact ⟨_, rfl, (sameBut_writeBytes s _ _).mono (by simp)⟩
  · exact next_sameBut_mono (raiseIn_sameBut _ _ s) (by simp)

theorem execStoreRegs_sameBut (x : Reg) (s : State) : ∃ t, execStoreRegs x s = .next t ∧ SameBut [.mem, .fault] s t := by
  rw [execStoreRegs]
  split
  · exact ⟨_, rfl, (sameBut_writeBytes s _ _).mono (by simp)⟩
  · exact next_sameBut_mono (raiseIn_sameBut _ _ s) (by simp)

theorem execLoadRegs_sameBut (x : Reg) (s : State) : ∃ t, execLoadRegs x s = .next t ∧ SameBut [.x, .fault] s t := by
  rw [execLoadRegs]
  split
  · exact ⟨_, rfl, (sameBut_setRegsFrom s _ _).mono (by simp)⟩
  · exact next_sameBut_mono (raiseIn_sameBut _ _ s) (by simp)

/-- Every instruction answers a next state, and every element outside its row of the matrix of writes is unchanged (R31). -/
theorem exec_sameBut_writes (i : Instr) (s : State) : ∃ t, exec i s = .next t ∧ SameBut (writes i) s t := by
  cases i with
  | cls => exact ⟨_, rfl, sameBut_setDisp s _⟩
  | ret => exact execRet_sameBut s
  | call nnn => exact execCall_sameBut nnn s
  | jp _ | jpV0 _ => exact ⟨_, rfl, sameBut_setPc s _⟩
  | seImm _ _ | sneImm _ _ | seReg _ _ | sneReg _ _ | skp _ | sknp _ => exact ⟨_, rfl, sameBut_skipIf s _⟩
  | ldImm x _ | addImm x _ | ldReg x _ | orReg x _ | andReg x _ | xorReg x _ | ldVxDT x => exact ⟨_, rfl, sameBut_setReg s x _⟩
  | addReg x _ | subReg x _ | shr x _ | subn x _ | shl x _ => exact ⟨_, rfl, sameBut_setResultAndFlag s x _ _⟩
  | rnd x nn => exact execRnd_sameBut x nn s
  | ldI _ | addI _ | ldF _ => exact ⟨_, rfl, sameBut_setI s _⟩
  | drw x y n => exact execDrw_sameBut x y n s
  | ldVxK _ => exact ⟨_, rfl, sameBut_setWait s _⟩
  | ldDTVx _ => exact ⟨_, rfl, sameBut_setDT s _⟩
  | ldSTVx _ => exact ⟨_, rfl, sameBut_setST s _⟩
  | ldB x => exact execLdB_sameBut x s
  | storeRegs x => exact execStoreRegs_sameBut x s
  | loadRegs x => exact execLoadRegs_sameBut x s

/-- The frame of a completed instruction. -/
theorem sameBut_writes_of_exec {i : Instr} {s t : State} (h : exec i s = .next t) : SameBut (writes i) s t := by
  obtain ⟨u, hu, hsu⟩ := exec_sameBut_writes i s
  rw [h, Host.Outcome.next.injEq] at hu
  exact hu ▸ hsu

/-! Two-state rules: an update applied to two states that agree on all but `c` leaves them agreeing on all but `c`. -/

section congruence

variable {c : List Elem} {s s' : State} (h : SameBut c s s')

include h

theorem SameBut.setI (v : Word) : SameBut c (s.setI v) (s'.setI v) := by
  intro e he
  cases e with
  | I => rfl
  | _ => exact h _ he

theorem SameBut.setPc (v : Word) : SameBut c (s.setPc v) (s'.setPc v) := by
  intro e he
  cases e with
  | pc => rfl
  | _ => exact h _ he

theorem SameBut.setDT (v : Byte) : SameBut c (s.setDT v) (s'.setDT v) := by
  intro e he
  cases e with
  | DT => rfl
  | _ => exact h _ he

theorem SameBut.setST (v : Byte) : SameBut c (s.setST v) (s'.setST v) := by
  intro e he
  cases e with
  | ST => rfl
  | _ => exact h _ he

theorem SameBut.setDisp (d : Display) : SameBut c (s.setDisp d) (s'.setDisp d) := by
  intro e he
  cases e with
  | disp => rfl
  | _ => exact h _ he

theorem SameBut.setWait (v : Option Reg) : SameBut c (s.setWait v) (s'.setWait v) := by
  intro e he
  cases e with
  | wait => rfl
  | _ => exact h _ he

theorem SameBut.setFault (v : Option FaultRecord) : SameBut c (s.setFault v) (s'.setFault v) := by
  intro e he
  cases e with
  | fault => rfl
  | _ => exact h _ he

theorem SameBut.setReg (r : Reg) (v : Byte) : SameBut c (s.setReg r v) (s'.setReg r v) := by
  intro e he
  cases e with
  | x =>
    intro q
    have hq : s'.reg q = s.reg q := h .x he q
    rw [State.reg_setReg, State.reg_setReg, hq]
  | _ => exact h _ he

theorem SameBut.setResultAndFlag (r : Reg) (v : Byte) (f : Bool) :
    SameBut c (s.setResultAndFlag r v f) (s'.setResultAndFlag r v f) :=
  (h.setReg r v).setReg VF _

theorem SameBut.takeDraw : SameBut c s.takeDraw s'.takeDraw := by
  intro e he
  cases e with
  | injected => exact congrArg List.tail (h .injected he)
  | drawCount => exact congrArg (· + 1) (h .drawCount he)
  | _ => exact h _ he

/-- A block write in range; memories that only read alike must be canonical. -/
theorem SameBut.writeBytes {a : Nat} {bs : List Byte} (hm : s'.mem = s.mem ∨ (s.mem.wf = true ∧ s'.mem.wf = true))
    (hr : checkRange a bs.length = true) : SameBut c (s.writeBytes a bs) (s'.writeBytes a bs) := by
  intro e he
  cases e with
  | mem =>
    intro b
    rcases hm with hm | ⟨hs, hs'⟩
    · rw [State.writeBytes_eq, State.writeBytes_eq, hm]
      rfl
    · have hb : s'.mem.read b = s.mem.read b := h .mem he b
      rw [State.read_writeBytes b hs hr, State.read_writeBytes b hs' hr, hb]
  | _ => exact h _ he

end congruence

theorem SameBut.setRegsFrom {c : List Elem} {s s' : State} (h : SameBut c s s') (k : Nat) (bs : List Byte) :
    SameBut c (s.setRegsFrom k bs) (s'.setRegsFrom k bs) := by
  induction bs generalizing s s' k with
  | nil => exact h
  | cons b bs ih =>
    rw [State.setRegsFrom, State.setRegsFrom]
    split
    · exact ih (h.setReg _ b) (k + 1)
    · exact h

theorem Elem.same_symm {e : Elem} {s t : State} (h : e.same s t) : e.same t s := by
  cases e with
  | mem => exact fun a => (h a).symm
  | x => exact fun r => (h r).symm
  | _ => exact Eq.symm h

/-- Two states that agree on all but `c`, each changed in `d` alone, still agree on all but `c` if the new values in `d` do. -/
theorem SameBut.of_frames {c d : List Elem} {s s' t t' : State} (h : SameBut c s s') (hs : SameBut d s t)
    (hs' : SameBut d s' t') (hd : ∀ e ∈ d, e ∉ c → e.same t t') : SameBut c t t' := by
  intro e he
  by_cases hed : e ∈ d
  · exact hd e hed he
  · exact Elem.same_trans (Elem.same_symm (hs e hed)) (Elem.same_trans (h e he) (hs' e hed))

/-! What an instruction reads is equal in two states that agree on it. -/

theorem State.x_eq_of_regs {s s' : State} (h : ∀ r, s'.reg r = s.reg r) : s'.x = s.x :=
  Vector.ext fun k hk => h ⟨k, hk⟩

theorem State.readBytes_congr {s s' : State} (h : ∀ a, s'.mem.read a = s.mem.read a) (a n : Nat) :
    s'.readBytes a n = s.readBytes a n := by
  simp only [State.readBytes, h]

/-! Noninterference: an instruction's result depends on what its row of the matrix says it reads, and on nothing else (R31). -/

/-- Both results are next states, which agree on all elements but `c`. -/
def AgreeBut (c : List Elem) (r r' : Result) : Prop := ∃ t t', r = .next t ∧ r' = .next t' ∧ SameBut c t t'

theorem SameBut.agree {c : List Elem} {t t' : State} (h : SameBut c t t') : AgreeBut c (.next t) (.next t') :=
  ⟨t, t', rfl, rfl, h⟩

section noninterference

variable {c : List Elem} {s s' : State} (h : SameBut c s s')

include h

theorem raiseIn_agree (hpc : s'.pc = s.pc) (k : FaultKind) (i : Instr) :
    AgreeBut c (raiseIn k i s) (raiseIn k i s') := by
  rw [raiseIn_eq, raiseIn_eq, hpc]
  exact (h.setFault _).agree

theorem SameBut.skipIf (hpc : s'.pc = s.pc) (b : Bool) : SameBut c (s.skipIf b) (s'.skipIf b) := by
  rw [State.skipIf_eq, State.skipIf_eq, hpc]
  exact h.setPc _

theorem execRet_agree (hstack : s'.stack = s.stack) (hsp : s'.sp = s.sp) (hpc : s'.pc = s.pc) :
    AgreeBut c (execRet s) (execRet s') := by
  by_cases hlt : 0 < s.sp.val
  · obtain ⟨t, ht, htsp, hst⟩ := pop_above hlt
    obtain ⟨t', ht', htsp', hst'⟩ := pop_above (s := s') (hsp ▸ hlt)
    have hagree : SameBut c t t' := by
      refine h.of_frames hst hst' fun e he _ => ?_
      obtain rfl := List.mem_singleton.1 he
      exact Fin.ext (by rw [htsp, htsp', hsp])
    rw [execRet, execRet, ht, ht']
    simp only [hstack, hsp]
    exact (hagree.setPc _).agree
  · rw [execRet, execRet, State.pop_empty (s := s) (by omega), State.pop_empty (s := s') (by rw [hsp]; omega)]
    exact raiseIn_agree h hpc _ _

theorem execCall_agree (nnn : Addr12) (hsp : s'.sp = s.sp) (hpc : s'.pc = s.pc) :
    AgreeBut c (execCall nnn s) (execCall nnn s') := by
  rw [execCall, execCall, hpc]
  by_cases hlt : s.sp.val < 16
  · obtain ⟨t, ht, htsp, htst, hst⟩ := push_below s.pc hlt
    obtain ⟨t', ht', htsp', htst', hst'⟩ := push_below (s := s') s.pc (hsp ▸ hlt)
    have hagree : SameBut c t t' := by
      refine h.of_frames hst hst' fun e he hc => ?_
      rcases List.mem_pair.1 he with rfl | rfl
      · have hstack : s'.stack = s.stack := h .stack hc
        change t'.stack = t.stack
        rw [htst, htst']
        simp only [hsp, hstack]
      · exact Fin.ext (by rw [htsp, htsp', hsp])
    rw [ht, ht']
    exact (hagree.setPc _).agree
  · rw [State.push_full (s := s) _ (by omega), State.push_full (s := s') _ (by rw [hsp]; omega)]
    exact raiseIn_agree h hpc _ _

theorem execRnd_agree (x : Reg) (nn : Byte) (hinj : s'.injected = s.injected) (hcount : s'.drawCount = s.drawCount) :
    AgreeBut c (execRnd x nn s) (execRnd x nn s') := by
  have hdraw : s'.drawByte = s.drawByte := by rw [State.drawByte, State.drawByte, hinj, hcount]
  rw [execRnd, execRnd, hdraw]
  exact (h.takeDraw.setReg x _).agree

theorem execDrw_agree (x y : Reg) (n : Fin 16) (hx : ∀ r, s'.reg r = s.reg r) (hI : s'.I = s.I)
    (hmem : ∀ a, s'.mem.read a = s.mem.read a) (hdisp : s'.disp = s.disp) (hpc : s'.pc = s.pc) :
    AgreeBut c (execDrw x y n s) (execDrw x y n s') := by
  rw [execDrw, execDrw, State.base, State.base, hI, State.readBytes_congr hmem, hx, hx, hdisp]
  split
  · exact (((h.setReg VF _).setDisp _).setReg VF _).agree
  · exact raiseIn_agree h hpc _ _

theorem execLdB_agree (x : Reg) (hm : s'.mem = s.mem ∨ (s.mem.wf = true ∧ s'.mem.wf = true))
    (hx : ∀ r, s'.reg r = s.reg r) (hI : s'.I = s.I) (hpc : s'.pc = s.pc) :
    AgreeBut c (execLdB x s) (execLdB x s') := by
  rw [execLdB, execLdB, State.base, State.base, hI, hx]
  split
  next hr => exact (h.writeBytes hm hr).agree
  next => exact raiseIn_agree h hpc _ _

theorem execStoreRegs_agree (x : Reg) (hm : s'.mem = s.mem ∨ (s.mem.wf = true ∧ s'.mem.wf = true))
    (hx : ∀ r, s'.reg r = s.reg r) (hI : s'.I = s.I) (hpc : s'.pc = s.pc) :
    AgreeBut c (execStoreRegs x s) (execStoreRegs x s') := by
  have hblock : s'.regBlock x = s.regBlock x := by rw [State.regBlock, State.regBlock, State.x_eq_of_regs hx]
  rw [execStoreRegs, execStoreRegs, State.base, State.base, hI, hblock]
  split
  next hr => exact (h.writeBytes hm (by rwa [State.length_regBlock])).agree
  next => exact raiseIn_agree h hpc _ _

theorem execLoadRegs_agree (x : Reg) (hI : s'.I = s.I) (hmem : ∀ a, s'.mem.read a = s.mem.read a) (hpc : s'.pc = s.pc) :
    AgreeBut c (execLoadRegs x s) (execLoadRegs x s') := by
  rw [execLoadRegs, execLoadRegs, State.base, State.base, hI, State.readBytes_congr hmem]
  split
  · exact (h.setRegsFrom _ _).agree
  · exact raiseIn_agree h hpc _ _

/-- Noninterference: from two states that agree on all elements but `c` and on every element the instruction reads, execution
answers next states that agree on all elements but `c` (R31). Memories that only read alike must be canonical. -/
theorem exec_agreeBut (i : Instr) (hm : s'.mem = s.mem ∨ (s.mem.wf = true ∧ s'.mem.wf = true))
    (hread : ∀ e ∈ reads i, e.same s s') : AgreeBut c (exec i s) (exec i s') := by
  cases i with
  | cls => exact (h.setDisp _).agree
  | ret => exact execRet_agree h (hread .stack (by simp [reads])) (hread .sp (by simp [reads])) (hread .pc (by simp [reads]))
  | jp nnn => exact (h.setPc _).agree
  | call nnn => exact execCall_agree h nnn (hread .sp (by simp [reads])) (hread .pc (by simp [reads]))
  | seImm x _ | sneImm x _ =>
    have hx : ∀ r, s'.reg r = s.reg r := hread .x (by simp [reads])
    simp only [exec, execSeImm, execSneImm, hx]
    exact (h.skipIf (hread .pc (by simp [reads])) _).agree
  | seReg x y | sneReg x y =>
    have hx : ∀ r, s'.reg r = s.reg r := hread .x (by simp [reads])
    simp only [exec, execSeReg, execSneReg, hx]
    exact (h.skipIf (hread .pc (by simp [reads])) _).agree
  | skp x | sknp x =>
    have hx : ∀ r, s'.reg r = s.reg r := hread .x (by simp [reads])
    have hkey : s'.key = s.key := hread .key (by simp [reads])
    simp only [exec, execSkp, execSknp, State.keyOf, hx, hkey]
    exact (h.skipIf (hread .pc (by simp [reads])) _).agree
  | ldImm x nn => exact (h.setReg x nn).agree
  | addImm x _ | ldReg x _ | orReg x _ | andReg x _ | xorReg x _ =>
    have hx : ∀ r, s'.reg r = s.reg r := hread .x (by simp [reads])
    simp only [exec, execAddImm, execLdReg, execOrReg, execAndReg, execXorReg, hx]
    exact (h.setReg x _).agree
  | addReg x _ | subReg x _ | shr x _ | subn x _ | shl x _ =>
    have hx : ∀ r, s'.reg r = s.reg r := hread .x (by simp [reads])
    simp only [exec, execAddReg, execSubReg, execShr, execSubn, execShl, hx]
    exact (h.setResultAndFlag x _ _).agree
  | ldI nnn => exact (h.setI _).agree
  | jpV0 nnn =>
    have hx : ∀ r, s'.reg r = s.reg r := hread .x (by simp [reads])
    simp only [exec, execJpV0, hx]
    exact (h.setPc _).agree
  | rnd x nn => exact execRnd_agree h x nn (hread .injected (by simp [reads])) (hread .drawCount (by simp [reads]))
  | drw x y n =>
    exact execDrw_agree h x y n (hread .x (by simp [reads])) (hread .I (by simp [reads])) (hread .mem (by simp [reads]))
      (hread .disp (by simp [reads])) (hread .pc (by simp [reads]))
  | ldVxDT x =>
    have hDT : s'.DT = s.DT := hread .DT (by simp [reads])
    simp only [exec, execLdVxDT, hDT]
    exact (h.setReg x _).agree
  | ldVxK x => exact (h.setWait _).agree
  | ldDTVx x =>
    have hx : ∀ r, s'.reg r = s.reg r := hread .x (by simp [reads])
    simp only [exec, execLdDTVx, hx]
    exact (h.setDT _).agree
  | ldSTVx x =>
    have hx : ∀ r, s'.reg r = s.reg r := hread .x (by simp [reads])
    simp only [exec, execLdSTVx, hx]
    exact (h.setST _).agree
  | addI x =>
    have hx : ∀ r, s'.reg r = s.reg r := hread .x (by simp [reads])
    have hI : s'.I = s.I := hread .I (by simp [reads])
    simp only [exec, execAddI, hx, hI]
    exact (h.setI _).agree
  | ldF x =>
    have hx : ∀ r, s'.reg r = s.reg r := hread .x (by simp [reads])
    simp only [exec, execLdF, hx]
    exact (h.setI _).agree
  | ldB x =>
    exact execLdB_agree h x hm (hread .x (by simp [reads])) (hread .I (by simp [reads])) (hread .pc (by simp [reads]))
  | storeRegs x =>
    exact execStoreRegs_agree h x hm (hread .x (by simp [reads])) (hread .I (by simp [reads])) (hread .pc (by simp [reads]))
  | loadRegs x =>
    exact execLoadRegs_agree h x (hread .I (by simp [reads])) (hread .mem (by simp [reads])) (hread .pc (by simp [reads]))

end noninterference

/-- Changing one element an instruction does not read, memory kept as it is, changes nothing but that element after it. -/
theorem exec_agreeBut_of_unread {e : Elem} {i : Instr} {s s' : State} (h : SameBut [e] s s') (hmem : s'.mem = s.mem)
    (he : e ∉ reads i) : AgreeBut [e] (exec i s) (exec i s') :=
  exec_agreeBut h i (.inl hmem) fun e' he' => h e' fun hc => he (List.mem_singleton.1 hc ▸ he')

/-! What a Step can do. -/

/-- The branches of a Step: a recorded fault is answered again, a wait is held, a fetch out of range or a refused word is a
fault entry, and a decoded word is its instruction (R63 to R65). -/
theorem step_cases (s : State) :
    (∃ r, s.fault = some r ∧ step s = .fault (.recorded r)) ∨
    (s.fault = none ∧ (∃ q, s.wait = some q) ∧ step s = .next s) ∨
    (s.running ∧ s.fetchWord = none ∧ step s = .next (s.setFault (some ⟨.memoryBounds, s.pc, none⟩))) ∨
    (∃ w, s.running ∧ s.fetchWord = some w ∧ decodeWord w = .error (.unknownOpcode w) ∧
      step s = .next ((s.setPc (s.pc + 2)).setFault (some ⟨.unknownOpcode, s.pc, some w⟩))) ∨
    (∃ w i, s.running ∧ s.fetchWord = some w ∧ decodeWord w = .ok i ∧ step s = exec i (s.setPc (s.pc + 2))) := by
  cases hf : s.fault with
  | some r => exact .inl ⟨r, rfl, by rw [step, stepCore, hf]⟩
  | none =>
    refine .inr ?_
    cases hw : s.wait with
    | some q => exact .inl ⟨rfl, ⟨q, rfl⟩, by rw [step, stepCore, hf, hw]⟩
    | none =>
      refine .inr ?_
      have hrun : s.running := ⟨hf, hw⟩
      rw [step_of_running hrun]
      cases hfetch : s.fetchWord with
      | none => exact .inl ⟨hrun, rfl, runInstruction_of_not_fetched hfetch⟩
      | some w =>
        refine .inr ?_
        rw [runInstruction_of_fetched hfetch]
        cases hd : decodeWord w with
        | ok i => exact .inr ⟨w, i, hrun, rfl, hd, executeWord_of_decoded _ hd⟩
        | error e =>
          have hrefused : decodeWord w = .error (.unknownOpcode w) := by
            rw [decodeWord_error_iff, Option.eq_none_iff_forall_not_mem]
            intro i hi
            rw [decodeWord_ok_iff.2 hi] at hd
            exact nomatch hd
          refine .inl ⟨w, hrun, rfl, hrefused, ?_⟩
          rw [executeWord_of_refused _ hd, State.setPc_pc, BitVec.add_sub_cancel]

/-- A Step of a running core whose fetched word decodes is that instruction, `pc` already past it. -/
theorem step_of_decoded {s : State} {w : Word} {i : Instr} (hrun : s.running) (hfetch : s.fetchWord = some w)
    (hd : decodeWord w = .ok i) : step s = exec i (s.setPc (s.pc + 2)) := by
  rw [step_of_running hrun, runInstruction_of_fetched hfetch, executeWord_of_decoded _ hd]

/-- The state after a Step transaction is the one the Step answers; a Step that answers none leaves it as it was (R66). -/
theorem State.hostStep_state (s : State) : step s = .next s.hostStep.2 ∨ s.hostStep.2 = s := by
  rw [State.hostStep]
  cases hstep : step s with
  | next t => exact .inl rfl
  | fault r => exact .inr rfl
  | refused r => exact .inr rfl

/-! The timers (R22). -/

theorem DT_mem_writes_iff {i : Instr} : .DT ∈ writes i ↔ ∃ x, i = .ldDTVx x := by cases i <;> simp [writes]

theorem ST_mem_writes_iff {i : Instr} : .ST ∈ writes i ↔ ∃ x, i = .ldSTVx x := by cases i <;> simp [writes]

theorem DT_mem_reads_iff {i : Instr} : .DT ∈ reads i ↔ ∃ x, i = .ldVxDT x := by cases i <;> simp [reads]

theorem ST_not_mem_reads (i : Instr) : .ST ∉ reads i := by cases i <;> simp [reads]

/-- Only FX15 writes DT and only FX18 writes ST. -/
theorem exec_timers_unchanged {i : Instr} {s t : State} (h : exec i s = .next t) :
    ((∀ x, i ≠ .ldDTVx x) → t.DT = s.DT) ∧ ((∀ x, i ≠ .ldSTVx x) → t.ST = s.ST) := by
  have hframe := sameBut_writes_of_exec h
  refine ⟨fun hi => hframe .DT fun hw => ?_, fun hi => hframe .ST fun hw => ?_⟩
  · obtain ⟨x, rfl⟩ := DT_mem_writes_iff.1 hw
    exact hi x rfl
  · obtain ⟨x, rfl⟩ := ST_mem_writes_iff.1 hw
    exact hi x rfl

/-- No instruction reads ST. -/
theorem exec_agreeBut_setST (i : Instr) (s : State) (v : Byte) : AgreeBut [.ST] (exec i s) (exec i (s.setST v)) :=
  exec_agreeBut_of_unread (sameBut_setST s v) rfl (ST_not_mem_reads i)

/-- No instruction but FX07 reads DT. -/
theorem exec_agreeBut_setDT {i : Instr} (s : State) (v : Byte) (hi : ∀ x, i ≠ .ldVxDT x) :
    AgreeBut [.DT] (exec i s) (exec i (s.setDT v)) := by
  refine exec_agreeBut_of_unread (sameBut_setDT s v) rfl fun hr => ?_
  obtain ⟨x, rfl⟩ := DT_mem_reads_iff.1 hr
  exact hi x rfl

/-- A Tick takes each timer one down, clamped at 0, and changes nothing else (R131). -/
theorem State.tick_spec (s : State) :
    s.tick.DT.toNat = s.DT.toNat - 1 ∧ s.tick.ST.toNat = s.ST.toNat - 1 ∧ SameBut [.DT, .ST] s s.tick :=
  ⟨toNat_countDown s.DT, toNat_countDown s.ST, sameBut_tick s⟩

/-- Settles O18: the writers by the frame of every instruction, the readers by noninterference, the countdown by `tick_spec`. -/
theorem timersHaveTheirWritersAndReaders : Obligations.TimersHaveTheirWritersAndReaders := by
  unfold Obligations.TimersHaveTheirWritersAndReaders
  refine ⟨fun _ _ _ h => exec_timers_unchanged h, exec_agreeBut_setST, fun _ s v hi => exec_agreeBut_setDT s v hi,
    fun x s => ⟨?_, ?_, ?_⟩, fun _ s => ⟨rfl, s.tick_spec⟩⟩
  · exact ⟨_, rfl, s.reg_setReg_same x s.DT⟩
  · exact ⟨_, rfl, s.setDT_DT (s.reg x)⟩
  · exact ⟨_, rfl, s.setST_ST (s.reg x)⟩

/-! The keypad (R23). -/

theorem key_not_mem_writes (i : Instr) : .key ∉ writes i := by cases i <;> simp [writes]

theorem key_mem_reads_iff {i : Instr} : .key ∈ reads i ↔ ∃ x, i = .skp x ∨ i = .sknp x := by cases i <;> simp [reads]

/-- No instruction writes the keypad. -/
theorem exec_key (i : Instr) (s : State) : ∃ t, exec i s = .next t ∧ t.key = s.key := by
  obtain ⟨t, ht, hframe⟩ := exec_sameBut_writes i s
  exact ⟨t, ht, hframe .key (key_not_mem_writes i)⟩

theorem sameBut_withKey (s : State) (keys : Vector Bool 16) : SameBut [.key] s { s with key := keys } := by
  intro e he
  cases e with
  | key => exact absurd (List.mem_singleton_self _) he
  | mem | x => exact fun _ => rfl
  | _ => rfl

/-- No instruction but EX9E and EXA1 reads the keypad. -/
theorem exec_agreeBut_withKey {i : Instr} (s : State) (keys : Vector Bool 16) (hi : ∀ x, i ≠ .skp x ∧ i ≠ .sknp x) :
    AgreeBut [.key] (exec i s) (exec i { s with key := keys }) := by
  refine exec_agreeBut_of_unread (sameBut_withKey s keys) rfl fun hr => ?_
  obtain ⟨x, rfl | rfl⟩ := key_mem_reads_iff.1 hr
  · exact (hi x).1 rfl
  · exact (hi x).2 rfl

/-- With every key in one position, the key of any register value is in it. -/
@[simp] theorem State.keyOf_replicate (s : State) (pressed : Bool) (v : Byte) :
    State.keyOf { s with key := Vector.replicate 16 pressed } v = pressed := by
  simp [State.keyOf]

theorem State.skipIf_pc (s : State) (c : Bool) : (s.skipIf c).pc = if c then s.pc + 2 else s.pc := by
  rw [State.skipIf_eq, State.setPc_pc]

/-- SetKey sets its key and leaves every other one (R136). -/
theorem State.getElem_setKey (s : State) (k j : Fin 16) (pressed : Bool) :
    (s.setKey k pressed).key[j.val] = if j = k then pressed else s.key[j.val] := by
  simp only [State.setKey_key, Vector.getElem_set, Fin.ext_iff, eq_comm]

/-- A Step leaves the keypad as it is. -/
theorem step_key {s t : State} (h : step s = .next t) : t.key = s.key := by
  rcases step_cases s with ⟨r, -, hs⟩ | ⟨-, -, hs⟩ | ⟨-, -, hs⟩ | ⟨w, -, -, -, hs⟩ | ⟨w, i, -, -, -, hs⟩ <;> rw [h] at hs
  · exact nomatch hs
  · obtain rfl := Host.Outcome.next.inj hs
    rfl
  · obtain rfl := Host.Outcome.next.inj hs
    rfl
  · obtain rfl := Host.Outcome.next.inj hs
    rfl
  · exact sameBut_writes_of_exec hs.symm .key (key_not_mem_writes i)

theorem State.keyPress_key (s : State) (k : Fin 16) : (s.keyPress k).key = s.key := by
  rw [State.keyPress]
  split <;> rfl

theorem State.load_key (s : State) (image : Image) : (s.load image).2.key = s.key := by
  cases image with
  | unavailable => rfl
  | bytes bs =>
    rw [State.load]
    split <;> rfl

/-- Every transaction but Reset and SetKey leaves the keypad unchanged. -/
theorem transact_key (font : Config.FontImage) {t : Transaction} (s : State) (hreset : t ≠ .reset)
    (hset : ∀ k p, t ≠ .setKey k p) : (transact font t s).2.key = s.key := by
  cases t with
  | reset => exact absurd rfl hreset
  | setKey k p => exact absurd rfl (hset k p)
  | load image => exact s.load_key image
  | step =>
    rcases s.hostStep_state with hstep | hsame
    · exact step_key hstep
    · exact congrArg State.key hsame
  | tick => rfl
  | keyPress k => exact s.keyPress_key k
  | readDisplay | readStatus => rfl

/-- Settles O19: the frame and noninterference of every instruction at the keypad, and the transactions case by case. -/
theorem keypadWrittenOnlyBySetKey : Obligations.KeypadWrittenOnlyBySetKey := by
  unfold Obligations.KeypadWrittenOnlyBySetKey
  refine ⟨exec_key, fun _ s keys hi => exec_agreeBut_withKey s keys hi, fun x s pressed => ⟨⟨_, rfl, ?_⟩, ⟨_, rfl, ?_⟩⟩,
    fun _ s k pressed => ⟨?_, fun j hj => ?_, sameBut_setKey s k pressed⟩, fun font _ s => transact_key font s⟩
  · rw [State.skipIf_pc, State.keyOf_replicate]
  · rw [State.skipIf_pc, State.keyOf_replicate]
    cases pressed <;> rfl
  · exact (s.getElem_setKey k k pressed).trans (if_pos rfl)
  · exact (s.getElem_setKey k j pressed).trans (if_neg hj)

/-! The fetch (R16, R38). -/

/-- Settles O7: the two bytes at `pc` are the fetched word, which the Step executes with `pc` past it. -/
theorem stepRunsTheDecodedInstruction : Obligations.StepRunsTheDecodedInstruction := by
  unfold Obligations.StepRunsTheDecodedInstruction
  intro s w i hrun hpc hhigh hlow hd
  exact step_of_decoded hrun (State.fetchWord_of_bytes hpc hhigh hlow) hd

end Sys2Proof.Machine
end

section
/-! PROOFS, family 30_encoding.md. When an instruction raises its fault and when it completes, what a Step transaction replies, and
the obligation on the outcomes of a Step. -/

namespace Sys2Proof.Machine

/-! Faulting and completing (R120, R122). -/

/-- The access of an instruction leaves memory exactly when its CheckRange fails (R39). -/
theorem accessOutside_iff {s : State} {n : Nat} : accessOutside s n ↔ checkRange s.base n = false :=
  checkRange_false_iff.symm

theorem checkRange_of_not_accessOutside {s : State} {n : Nat} (h : ¬ accessOutside s n) : checkRange s.base n = true := by
  rwa [accessOutside_iff, Bool.not_eq_false] at h

/-- An instruction whose fault condition holds is a fault entry, and nothing else is done (R120, R122). -/
theorem exec_of_faultsWith {i : Instr} {s : State} {k : FaultKind} (h : faultsWith s i k) : exec i s = raiseIn k i s := by
  cases i with
  | ret =>
    obtain ⟨rfl, hsp⟩ := h
    rw [exec, execRet, State.pop_empty hsp]
  | call nnn =>
    obtain ⟨rfl, hsp⟩ := h
    rw [exec, execCall, State.push_full _ hsp]
  | drw x y n =>
    obtain ⟨rfl, hout⟩ := h
    simp [exec, execDrw, accessOutside_iff.1 hout]
  | ldB x =>
    obtain ⟨rfl, hout⟩ := h
    simp [exec, execLdB, accessOutside_iff.1 hout]
  | storeRegs x =>
    obtain ⟨rfl, hout⟩ := h
    simp [exec, execStoreRegs, blockSize, accessOutside_iff.1 hout]
  | loadRegs x =>
    obtain ⟨rfl, hout⟩ := h
    simp [exec, execLoadRegs, blockSize, accessOutside_iff.1 hout]
  | _ => exact h.elim

/-- An instruction outside whose row of the matrix of writes the fault element stands leaves it unchanged (R31). -/
theorem exec_fault_unchanged {i : Instr} (s : State) (h : .fault ∉ writes i) : ∃ t, exec i s = .next t ∧ t.fault = s.fault := by
  obtain ⟨t, ht, hframe⟩ := exec_sameBut_writes i s
  exact ⟨t, ht, hframe .fault h⟩

/-- An instruction whose fault condition does not hold completes and records no fault (R120). -/
theorem exec_of_not_faultsWith {i : Instr} {s : State} (h : ∀ k, ¬ faultsWith s i k) :
    ∃ t, exec i s = .next t ∧ t.fault = s.fault := by
  cases i with
  | ret =>
    have hsp : 0 < s.sp.val := Nat.pos_of_ne_zero fun h0 => h _ ⟨rfl, h0⟩
    obtain ⟨t, ht, -, hframe⟩ := pop_above hsp
    rw [exec, execRet, ht]
    exact ⟨_, rfl, hframe .fault (by simp)⟩
  | call nnn =>
    have hne : s.sp.val ≠ 16 := fun h16 => h _ ⟨rfl, h16⟩
    obtain ⟨t, ht, -, -, hframe⟩ := push_below (s := s) s.pc (by omega)
    rw [exec, execCall, ht]
    exact ⟨_, rfl, hframe .fault (by simp)⟩
  | drw x y n =>
    have hin := checkRange_of_not_accessOutside fun hout => h _ ⟨rfl, hout⟩
    rw [exec, execDrw, if_pos hin]
    exact ⟨_, rfl, rfl⟩
  | ldB x =>
    have hin := checkRange_of_not_accessOutside fun hout => h _ ⟨rfl, hout⟩
    rw [exec, execLdB, if_pos hin]
    exact ⟨_, rfl, rfl⟩
  | storeRegs x =>
    have hin : checkRange s.base (blockSize x) = true := checkRange_of_not_accessOutside fun hout => h _ ⟨rfl, hout⟩
    rw [exec, execStoreRegs, if_pos hin]
    exact ⟨_, rfl, rfl⟩
  | loadRegs x =>
    have hin : checkRange s.base (blockSize x) = true := checkRange_of_not_accessOutside fun hout => h _ ⟨rfl, hout⟩
    rw [exec, execLoadRegs, if_pos hin]
    exact ⟨_, rfl, sameBut_setRegsFrom s _ _ .fault (by simp)⟩
  | _ => exact exec_fault_unchanged s (by simp [writes])

/-- The two ways an instruction ends: the fault entry of its condition, or completed with the fault element as it was. -/
theorem exec_raises_or_completes (i : Instr) (s : State) :
    (∃ k, faultsWith s i k ∧ exec i s = raiseIn k i s) ∨
    ((∀ k, ¬ faultsWith s i k) ∧ ∃ t, exec i s = .next t ∧ t.fault = s.fault) := by
  by_cases h : ∃ k, faultsWith s i k
  · obtain ⟨k, hk⟩ := h
    exact .inl ⟨k, hk, exec_of_faultsWith hk⟩
  · rw [not_exists] at h
    exact .inr ⟨h, exec_of_not_faultsWith h⟩

/-! The reply of a Step transaction (R66). -/

section reply

variable {s t : State} {r : FaultRecord}

theorem State.hostStep_of_recorded (h : step s = .fault (.recorded r)) : s.hostStep = (.faulted r, s) := by
  rw [State.hostStep, h]

theorem State.hostStep_of_waiting {q : Reg} (hwait : s.wait = some q) (h : step s = .next t) : s.hostStep = (.hold, t) := by
  rw [State.hostStep, h, hwait]

theorem State.hostStep_of_completed (hrun : s.running) (h : step s = .next t) (hfault : t.fault = none) :
    s.hostStep = (.ok, t) := by
  simp only [State.hostStep, h, hrun.2, hfault]

theorem State.hostStep_of_raised (hrun : s.running) (h : step s = .next t) (hfault : t.fault = some r) :
    s.hostStep = (.faulted r, t) := by
  simp only [State.hostStep, h, hrun.2, hfault]

end reply

/-- A fault entry after the fetch's advance writes `pc` and the fault element and nothing else (R122). -/
theorem sameBut_setPc_setFault (s : State) (v : Word) (f : Option FaultRecord) :
    SameBut [.pc, .fault] s ((s.setPc v).setFault f) :=
  ((sameBut_setPc s v).mono (by simp)).trans ((sameBut_setFault _ f).mono (by simp))

/-- Settles O8: the branches of a Step, each with its reply; the executed instruction raises its fault or completes. -/
theorem stepAnswersOkHoldOrFaulted : Obligations.StepAnswersOkHoldOrFaulted := by
  unfold Obligations.StepAnswersOkHoldOrFaulted
  intro s
  rcases step_cases s with ⟨r, hf, hs⟩ | ⟨-, ⟨q, hq⟩, hs⟩ | ⟨hrun, -, hs⟩ | ⟨w, hrun, -, -, hs⟩ | ⟨w, i, hrun, hw, hd, hs⟩
  · exact .inr (.inr ⟨r, s, State.hostStep_of_recorded hs, SameBut.refl _ s, hf, .inl rfl⟩)
  · exact .inr (.inl (State.hostStep_of_waiting hq hs))
  · exact .inr (.inr ⟨_, _, State.hostStep_of_raised hrun hs rfl, (sameBut_setFault s _).mono (by simp), rfl, .inl rfl⟩)
  · exact .inr (.inr ⟨_, _, State.hostStep_of_raised hrun hs rfl, sameBut_setPc_setFault s _ _, rfl, .inr rfl⟩)
  · rcases exec_raises_or_completes i (s.setPc (s.pc + 2)) with ⟨k, -, hraise⟩ | ⟨-, t, ht, hfault⟩
    · rw [hraise, raiseIn_eq] at hs
      exact .inr (.inr ⟨_, _, State.hostStep_of_raised hrun hs rfl, sameBut_setPc_setFault s _ _, rfl, .inr rfl⟩)
    · have hnone : t.fault = none := hfault.trans hrun.1
      exact .inl ⟨t, w, i, State.hostStep_of_completed hrun (hs.trans ht) hnone, hw, hd, ht⟩

end Sys2Proof.Machine
end

section
/-! PROOFS, family 40_control_flow.md. Decoding is the inverse of encoding, a fetch outside memory faults, and the obligations on
00EE, 1NNN, 3XNN and 4XNN. -/

namespace Sys2Proof

/-! A word is determined by the fields its row of the opcode table fixes and the operands decoded from it (R53). -/

section words

variable {w : Word} {op : Nat} (hop : (fields w).op = op)

include hop

theorem op_lt_of_fields : op < 16 := hop ▸ bits_15_12_lt w

theorem eq_wordA_of_fields : w = wordA op (fields w).NNN :=
  (eq_wordA_iff (op_lt_of_fields hop)).2 ⟨hop, (fields_NNN w).symm⟩

theorem eq_wordXK_of_fields : w = wordXK op (fields w).X (fields w).NN :=
  (eq_wordXK_iff (op_lt_of_fields hop)).2 ⟨hop, (fields_X w).symm, (fields_NN w).symm⟩

theorem eq_wordXY_of_fields {n : Nat} (hn : (fields w).N.val = n) : w = wordXY op (fields w).X (fields w).Y n :=
  (eq_wordXY_iff (op_lt_of_fields hop) (hn ▸ (fields w).N.isLt)).2
    ⟨hop, (fields_N w).symm.trans hn, (fields_X w).symm, (fields_Y w).symm⟩

theorem eq_wordXF_of_fields {low : Nat} (hlow : (fields w).NN.toNat = low) : w = wordXF op (fields w).X low :=
  (eq_wordXF_iff (op_lt_of_fields hop) (hlow ▸ (fields w).NN.isLt)).2
    ⟨hop, (fields_NN w).symm.trans hlow, (fields_X w).symm⟩

end words

/-! Each dispatch of R56 and R57 selects only the instruction whose word it was given. -/

section selection

variable {w : Word} {i : Instr}

theorem eq_encode_of_selectFamily0 (hop : (fields w).op = 0x0) (h : selectFamily0 (fields w) = some i) : w = encode i := by
  have hw := eq_wordA_of_fields hop
  unfold selectFamily0 at h
  split at h
  case h_1 hnnn | h_2 hnnn =>
    cases h
    rw [hw, wordA, hnnn]
    rfl
  case h_3 => cases h

theorem eq_encode_of_selectFamily8 (hop : (fields w).op = 0x8) (h : selectFamily8 (fields w) = some i) : w = encode i := by
  unfold selectFamily8 at h
  split at h
  case h_1 hn | h_2 hn | h_3 hn | h_4 hn | h_5 hn | h_6 hn | h_7 hn | h_8 hn | h_9 hn =>
    cases h
    exact eq_wordXY_of_fields hop hn
  case h_10 => cases h

theorem eq_encode_of_selectFamilyE (hop : (fields w).op = 0xE) (h : selectFamilyE (fields w) = some i) : w = encode i := by
  unfold selectFamilyE at h
  split at h
  case h_1 hlow | h_2 hlow =>
    cases h
    exact eq_wordXF_of_fields hop hlow
  case h_3 => cases h

theorem eq_encode_of_selectFamilyF (hop : (fields w).op = 0xF) (h : selectFamilyF (fields w) = some i) : w = encode i := by
  unfold selectFamilyF at h
  split at h
  case h_1 hlow | h_2 hlow | h_3 hlow | h_4 hlow | h_5 hlow | h_6 hlow | h_7 hlow | h_8 hlow | h_9 hlow =>
    cases h
    exact eq_wordXF_of_fields hop hlow
  case h_10 => cases h

theorem selectIfZero_eq_some {f : Fields} {j : Instr} : selectIfZero f j = some i ↔ f.N.val = 0x0 ∧ j = i := by
  simp [selectIfZero]

/-- The dispatch by the leading nibble selects only the instruction whose word it was given (R57). -/
theorem eq_encode_of_select (h : select (fields w) = some i) : w = encode i := by
  unfold select at h
  split at h
  case h_1 hop => exact eq_encode_of_selectFamily0 hop h
  case h_2 hop | h_3 hop | h_11 hop | h_12 hop =>
    cases h
    exact eq_wordA_of_fields hop
  case h_4 hop | h_5 hop | h_7 hop | h_8 hop | h_13 hop =>
    cases h
    exact eq_wordXK_of_fields hop
  case h_6 hop | h_10 hop =>
    obtain ⟨hn, rfl⟩ := selectIfZero_eq_some.1 h
    exact eq_wordXY_of_fields hop hn
  case h_9 hop => exact eq_encode_of_selectFamily8 hop h
  case h_14 hop =>
    cases h
    exact eq_wordXY_of_fields hop rfl
  case h_15 hop => exact eq_encode_of_selectFamilyE hop h
  case h_16 hop => exact eq_encode_of_selectFamilyF hop h
  case h_17 => cases h

end selection

/-- The word of an instruction selects that instruction (R57). -/
theorem select_fields_encode (i : Instr) : select (fields (encode i)) = some i := by
  cases i with
  | cls | ret => decide
  | jp | call | ldI | jpV0 => simp (disch := decide) only [encode, select, fields_wordA]
  | seImm | sneImm | ldImm | addImm | rnd => simp (disch := decide) only [encode, select, fields_wordXK]
  | seReg | sneReg => simp (disch := decide) only [encode, select, selectIfZero, fields_wordXY, if_true]
  | ldReg | orReg | andReg | xorReg | addReg | subReg | shr | subn | shl =>
    simp (disch := decide) only [encode, select, selectFamily8, fields_wordXY]
  | drw x y n =>
    obtain ⟨hop, hx, hy, hn⟩ := fields_wordXY (op := 0xD) (by decide) n.isLt x y
    simp only [encode, select, hop, hx, hy, Fin.ext hn]
  | skp | sknp => simp (disch := decide) only [encode, select, selectFamilyE, fields_wordXF]
  | ldVxDT | ldVxK | ldDTVx | ldSTVx | addI | ldF | ldB | storeRegs | loadRegs =>
    simp (disch := decide) only [encode, select, selectFamilyF, fields_wordXF]

/-- Exactly the word of an instruction decodes to it (R57, R58). -/
theorem decodeWord_ok_iff_eq_encode {w : Word} {i : Instr} : decodeWord w = .ok i ↔ w = encode i := by
  rw [decodeWord_ok_iff]
  constructor
  · exact eq_encode_of_select
  · rintro rfl
    exact select_fields_encode i

end Sys2Proof

namespace Sys2Proof.Machine

/-! Exactly the words of one shape decode to an instruction that encodes in that shape (R53). -/

theorem decodesA_of_encode {op : Nat} {f : Addr12 → Instr} (hop : op < 16) (hf : ∀ a, encode (f a) = wordA op a) :
    DecodesA op f := by
  intro w a
  rw [decodeWord_ok_iff_eq_encode, hf, eq_wordA_iff hop]

theorem decodesXK_of_encode {op : Nat} {f : Reg → Byte → Instr} (hop : op < 16)
    (hf : ∀ x k, encode (f x k) = wordXK op x k) : DecodesXK op f := by
  intro w x k
  rw [decodeWord_ok_iff_eq_encode, hf, eq_wordXK_iff hop]

/-! The next fetch (R64). -/

/-- A running core whose `pc` has no whole word in memory faults at its next fetch (R64). -/
theorem nextFetchFaults_of_pc_outside {s : State} (hrun : s.running) (hpc : 0xFFF ≤ s.pc.toNat) : NextFetchFaults s := by
  have hfetch : s.fetchWord = none := by rw [State.fetchWord_eq, if_neg (by omega)]
  exact ⟨_, (step_of_running hrun).trans (runInstruction_of_not_fetched hfetch), rfl, sameBut_setFault s _⟩

/-- Setting `pc` neither records a fault nor starts a wait. -/
theorem State.running_setPc {s : State} (hrun : s.running) (v : Word) : (s.setPc v).running := hrun

/-- Zero extension keeps the value of an address (R54). -/
@[simp] theorem toNat_addrOf (nnn : Addr12) : (addrOf nnn).toNat = nnn.toNat := by
  rw [addrOf, BitVec.toNat_setWidth_of_le (by decide)]

/-! 1NNN (R69). -/

/-- Settles O23: shape A decodes to it, its meaning is one `setPc`, and 0xFFF is outside the range of a fetch. -/
theorem jumpSetsThePc : Obligations.JumpSetsThePc := by
  unfold Obligations.JumpSetsThePc
  refine ⟨decodesA_of_encode (by decide) fun _ => rfl, fun nnn s => ⟨_, rfl, toNat_addrOf nnn, sameBut_setPc s _, ?_⟩⟩
  rintro hrun rfl
  exact nextFetchFaults_of_pc_outside (State.running_setPc hrun _) (toNat_addrOf 0xFFF).ge

/-! 00EE (R68). -/

/-- A return with the stack in use takes `pc` from the top entry and one from `sp`, and changes nothing else. -/
theorem exec_ret_of_depth {s : State} (k : Fin 16) (hsp : s.sp.val = k.val + 1) :
    ∃ t, exec .ret s = .next t ∧ t.pc = s.stack[k.val] ∧ t.sp.val = k.val ∧ SameBut [.pc, .sp] s t := by
  obtain ⟨t, hpop, htsp, hframe⟩ := pop_above (s := s) (by omega)
  refine ⟨t.setPc _, by rw [exec, execRet, hpop], ?_, ?_, (hframe.mono ?_).trans ((sameBut_setPc t _).mono ?_)⟩
  · simp only [State.setPc_pc, hsp, Nat.add_sub_cancel]
  · rw [State.setPc_sp, htsp, hsp, Nat.add_sub_cancel]
  · simp
  · simp

/-- Settles O22: one word decodes to it; in use, the stack is popped; empty, `ret` is a fault entry. -/
theorem returnPopsThePcOrUnderflows : Obligations.ReturnPopsThePcOrUnderflows := by
  unfold Obligations.ReturnPopsThePcOrUnderflows
  refine ⟨fun w => decodeWord_ok_iff_eq_encode, fun s => ⟨exec_ret_of_depth, fun hsp => ?_⟩⟩
  exact ⟨_, exec_of_faultsWith ⟨rfl, hsp⟩, rfl, sameBut_setFault s _⟩

/-! 3XNN and 4XNN (R72, R73). -/

/-- A taken skip at 0xFFE, where the fetch has set `pc` to 0x1000: `pc` leaves memory and the next fetch faults. -/
theorem skipIf_at_end_of_memory {s : State} {c : Bool} (hrun : s.running) (hpc : s.pc = 0x1000) (hc : c = true) :
    (s.skipIf c).pc = 0x1002 ∧ NextFetchFaults (s.skipIf c) := by
  have hend : (s.skipIf c).pc = 0x1002 := by
    rw [State.skipIf_pc, if_pos hc, hpc]
    rfl
  refine ⟨hend, nextFetchFaults_of_pc_outside ?_ ?_⟩
  · rw [State.skipIf_eq]
    exact State.running_setPc hrun _
  · rw [hend]
    decide

/-- Settles O26: shape XK decodes to each, and each is a `skipIf`, the second with the negated condition. -/
theorem skipOnImmediateAddsTwoToThePc : Obligations.SkipOnImmediateAddsTwoToThePc := by
  unfold Obligations.SkipOnImmediateAddsTwoToThePc
  refine ⟨decodesXK_of_encode (by decide) fun _ _ => rfl, decodesXK_of_encode (by decide) fun _ _ => rfl,
    fun x nn s => ⟨⟨_, rfl, ?_, sameBut_skipIf s _, fun hrun hpc hx => ?_⟩,
      ⟨_, rfl, ?_, sameBut_skipIf s _, fun hrun hpc hx => ?_⟩⟩⟩
  · simp only [State.skipIf_pc, decide_eq_true_eq]
  · exact skipIf_at_end_of_memory hrun hpc (decide_eq_true hx)
  · simp only [State.skipIf_pc, decide_eq_true_eq, ite_not]
  · exact skipIf_at_end_of_memory hrun hpc (decide_eq_true hx)

end Sys2Proof.Machine
end

section
/-! PROOFS, family 41_alu.md. What one register write keeps, and the obligations on 6XNN, 7XNN and 8XY0: each is one `setReg`. -/

namespace Sys2Proof.Machine

/-- Exactly the words of shape XY decode to an instruction that encodes in that shape (R53). -/
theorem decodesXY_of_encode {op n : Nat} {f : Reg → Reg → Instr} (hop : op < 16) (hn : n < 16)
    (hf : ∀ x y, encode (f x y) = wordXY op x y n) : DecodesXY op n f := by
  intro w x y
  rw [decodeWord_ok_iff_eq_encode, hf, eq_wordXY_iff hop hn]

/-- A register write keeps every other register. -/
theorem regsSameBut_setReg (s : State) (x : Reg) (v : Byte) : RegsSameBut [x] s (s.setReg x v) :=
  fun _ hr => State.reg_setReg_other s v (List.ne_of_not_mem_cons hr)

/-- Writing to a register the value it holds changes nothing. -/
theorem State.setReg_reg_self (s : State) (x : Reg) : s.setReg x (s.reg x) = s := by
  simp only [State.setReg, State.reg, Vector.set_getElem_self]

/-- Settles O29: shape XK decodes to it, and its meaning is one register write of NN. -/
theorem loadImmediateWritesTheByte : Obligations.LoadImmediateWritesTheByte := by
  unfold Obligations.LoadImmediateWritesTheByte
  exact ⟨decodesXK_of_encode (by decide) fun _ _ => rfl,
    fun x nn s => ⟨_, rfl, s.reg_setReg_same x nn, regsSameBut_setReg s x nn, sameBut_setReg s x nn⟩⟩

/-- Settles O30: shape XK decodes to it, and its meaning is one register write of the sum of two bytes, which wraps. -/
theorem addImmediateWrapsWithoutFlag : Obligations.AddImmediateWrapsWithoutFlag := by
  unfold Obligations.AddImmediateWrapsWithoutFlag
  refine ⟨decodesXK_of_encode (by decide) fun _ _ => rfl,
    fun x nn s => ⟨_, rfl, ?_, regsSameBut_setReg s x _, sameBut_setReg s x _⟩⟩
  rw [State.reg_setReg_same, BitVec.toNat_add]

/-- Settles O31: shape XY decodes to it, and its meaning is one register write, of the register's own value when X = Y. -/
theorem assignCopiesTheRegister : Obligations.AssignCopiesTheRegister := by
  unfold Obligations.AssignCopiesTheRegister
  refine ⟨decodesXY_of_encode (by decide) (by decide) fun _ _ => rfl,
    fun x y s => ⟨_, rfl, s.reg_setReg_same x _, regsSameBut_setReg s x _, sameBut_setReg s x _, ?_⟩⟩
  rintro rfl
  rw [State.setReg_reg_self]
  exact SameBut.refl [] s

end Sys2Proof.Machine
end

section
/-! PROOFS, family 42_index_memory.md. ANNN (R94): one write to `I`. -/

namespace Sys2Proof.Machine

/-- The address held in an instruction is at most 0xFFF, also as a word. -/
theorem toNat_addrOf_le (nnn : Addr12) : (addrOf nnn).toNat ≤ 0xFFF := by
  rw [toNat_addrOf]
  exact Nat.le_of_lt_succ nnn.isLt

/-- Settles O37: shape A decodes to it, and its meaning is one write of the 12-bit address to `I`. -/
theorem loadAddressRegisterWritesNNN : Obligations.LoadAddressRegisterWritesNNN := by
  unfold Obligations.LoadAddressRegisterWritesNNN
  exact ⟨decodesA_of_encode (by decide) fun _ => rfl,
    fun nnn s => ⟨_, rfl, toNat_addrOf nnn, toNat_addrOf_le nnn, sameBut_setI s _⟩⟩

end Sys2Proof.Machine
end

section
/-! PROOFS, family 43_display.md. 00E0 (R102): one write of the blank display. -/

namespace Sys2Proof.Machine

/-- Settles O21: one word decodes to it, and its meaning is one write of the blank display. -/
theorem clearScreenBlanksEveryPixel : Obligations.ClearScreenBlanksEveryPixel := by
  unfold Obligations.ClearScreenBlanksEveryPixel
  exact ⟨fun w => decodeWord_ok_iff_eq_encode,
    fun s => ⟨_, rfl, pixel_blankDisplay, sameBut_setDisp s blankDisplay⟩⟩

end Sys2Proof.Machine
end

section
/-! PROOFS, family 44_keys_timers.md. What a run of Ticks does to the timers, and the obligations on FX07, FX15 and FX18: each
is one write of a register or of a timer. -/

namespace Sys2Proof.Machine

/-- Exactly the words of shape XF decode to an instruction that encodes in that shape (R53). -/
theorem decodesXF_of_encode {op low : Nat} {f : Reg → Instr} (hop : op < 16) (hlow : low < 256)
    (hf : ∀ x, encode (f x) = wordXF op x low) : DecodesXF op low f := by
  intro w x
  rw [decodeWord_ok_iff_eq_encode, hf, eq_wordXF_iff hop hlow]

/-- A run of k Ticks takes each timer k down, clamped at 0, and changes nothing else (R131). -/
theorem runSchedule_ticks_spec (font : Config.FontImage) (k : Nat) (s : State) :
    (runSchedule font (List.replicate k .tick) s).DT.toNat = s.DT.toNat - k ∧
    (runSchedule font (List.replicate k .tick) s).ST.toNat = s.ST.toNat - k ∧
    SameBut [.DT, .ST] s (runSchedule font (List.replicate k .tick) s) := by
  induction k generalizing s with
  | zero => exact ⟨rfl, rfl, SameBut.refl _ s⟩
  | succ k ih =>
    obtain ⟨hDT, hST, hframe⟩ := s.tick_spec
    obtain ⟨hDT', hST', hframe'⟩ := ih s.tick
    exact ⟨hDT'.trans (by omega), hST'.trans (by omega), hframe.trans hframe'⟩

/-- FX07 after k Ticks reads DT less k, clamped at 0 (R113). -/
theorem exec_ldVxDT_after_ticks (x : Reg) (font : Config.FontImage) (k : Nat) (s : State) :
    ∃ t, exec (.ldVxDT x) (runSchedule font (List.replicate k .tick) s) = .next t ∧ (t.reg x).toNat = s.DT.toNat - k := by
  refine ⟨_, rfl, ?_⟩
  rw [State.reg_setReg_same]
  exact (runSchedule_ticks_spec font k s).1

/-- A delay timer at 0 stays there through every run of Ticks (R116). -/
theorem DT_zero_after_ticks {s : State} (h : s.DT = 0) (font : Config.FontImage) (k : Nat) :
    (runSchedule font (List.replicate k .tick) s).DT = 0 := by
  apply BitVec.eq_of_toNat_eq
  rw [(runSchedule_ticks_spec font k s).1, h]
  exact Nat.zero_sub k

/-- Settles O47: shape XF decodes to it, its meaning is one register write of DT, and FX15 is the write whose Ticks it counts. -/
theorem readDelayTimerCopiesDT : Obligations.ReadDelayTimerCopiesDT := by
  unfold Obligations.ReadDelayTimerCopiesDT
  refine ⟨decodesXF_of_encode (by decide) (by decide) fun _ => rfl, fun x s =>
    ⟨⟨_, rfl, s.reg_setReg_same x s.DT, regsSameBut_setReg s x s.DT, sameBut_setReg s x s.DT⟩, fun font k =>
      ⟨exec_ldVxDT_after_ticks x font k s, fun y => ?_⟩⟩⟩
  obtain ⟨u, hexec, hread⟩ := exec_ldVxDT_after_ticks x font k (s.setDT (s.reg y))
  rw [State.setDT_DT] at hread
  refine ⟨_, u, rfl, hexec, hread, fun hk hy => ?_⟩
  have hpos : (s.reg y).toNat ≠ 0 := fun h0 => hy (BitVec.eq_of_toNat_eq h0)
  omega

/-- Settles O48: shape XF decodes to each, each is one write of its timer, a DT of 0 stays 0, and no instruction reads ST. -/
theorem setTimersCopyVx : Obligations.SetTimersCopyVx := by
  unfold Obligations.SetTimersCopyVx
  refine ⟨decodesXF_of_encode (by decide) (by decide) fun _ => rfl, decodesXF_of_encode (by decide) (by decide) fun _ => rfl,
    exec_agreeBut_setST, fun x s font => ⟨?_, ?_⟩⟩
  · exact ⟨_, rfl, s.setDT_DT (s.reg x), sameBut_setDT s _, fun h0 k => DT_zero_after_ticks h0 font k⟩
  · exact ⟨_, rfl, s.setST_ST (s.reg x), sameBut_setST s _, rfl⟩

end Sys2Proof.Machine
end

section
/-! PROOFS, family 60_exceptions.md. What starts the wait of FX0A, what a transaction writes while it lasts, and the obligation on
its end: every schedule without KeyPress and Reset keeps it. -/

namespace Sys2Proof.Machine

/-! What starts a wait (R114). -/

theorem wait_mem_writes_iff {i : Instr} : .wait ∈ writes i ↔ ∃ x, i = .ldVxK x := by cases i <;> simp [writes]

/-- Only FX0A starts a wait, for the register its X names. -/
theorem eq_ldVxK_of_exec_starts_wait {i : Instr} {s t : State} {x : Reg} (hs : s.wait = none) (h : exec i s = .next t)
    (ht : t.wait = some x) : i = .ldVxK x := by
  have hwrites : .wait ∈ writes i := by
    by_contra hkept
    have hsame : t.wait = s.wait := sameBut_writes_of_exec h .wait hkept
    rw [hsame, hs] at ht
    exact nomatch ht
  obtain ⟨y, rfl⟩ := wait_mem_writes_iff.1 hwrites
  obtain rfl := Host.Outcome.next.inj h
  rw [Option.some.inj ht]

/-- A Step that starts a wait has fetched and decoded FX0A: a held or a faulting Step starts none. -/
theorem fetched_ldVxK_of_step_starts_wait {s t : State} {x : Reg} (hs : s.wait = none) (h : step s = .next t)
    (ht : t.wait = some x) : ∃ w, s.fetchWord = some w ∧ decodeWord w = .ok (.ldVxK x) := by
  have hchanged : t.wait ≠ s.wait := by simp [ht, hs]
  rcases step_cases s with ⟨r, -, hstep⟩ | ⟨-, -, hstep⟩ | ⟨-, -, hstep⟩ | ⟨w, -, -, -, hstep⟩ | ⟨w, i, -, hw, hd, hstep⟩ <;>
    rw [h] at hstep
  · exact nomatch hstep
  · obtain rfl := Host.Outcome.next.inj hstep
    exact absurd rfl hchanged
  · obtain rfl := Host.Outcome.next.inj hstep
    exact absurd rfl hchanged
  · obtain rfl := Host.Outcome.next.inj hstep
    exact absurd rfl hchanged
  · obtain rfl := eq_ldVxK_of_exec_starts_wait (s := s.setPc (s.pc + 2)) hs hstep.symm ht
    exact ⟨w, hw, hd⟩

theorem sameBut_load (s : State) (image : Image) : SameBut [.mem] s (s.load image).2 := by
  cases image with
  | unavailable => exact SameBut.refl _ s
  | bytes bs =>
    rw [State.load]
    split
    · exact SameBut.refl _ s
    · exact sameBut_writeBytes s _ bs

/-- After a KeyPress the core waits for no key, whether it waited before or not (R115). -/
@[simp] theorem State.keyPress_wait (s : State) (k : Fin 16) : (s.keyPress k).wait = none := by
  rw [State.keyPress]
  split
  next => rfl
  next hnone => exact hnone

/-- No transaction but Step starts a wait. -/
theorem transact_wait_none (font : Config.FontImage) {t : Transaction} {s : State} (hs : s.wait = none) (ht : t ≠ .step) :
    (transact font t s).2.wait = none := by
  cases t with
  | step => exact absurd rfl ht
  | reset => rfl
  | load image =>
    have hsame : (s.load image).2.wait = s.wait := sameBut_load s image .wait (by simp)
    exact hsame.trans hs
  | keyPress k => exact s.keyPress_wait k
  | tick | setKey _ _ | readDisplay | readStatus => exact hs

/-- A transaction that starts a wait is a Step whose fetched word is FX0A with the waiting register as its X. -/
theorem transact_starts_wait {font : Config.FontImage} {t : Transaction} {s : State} {x : Reg} (hs : s.wait = none)
    (hx : (transact font t s).2.wait = some x) : t = .step ∧ ∃ w, s.fetchWord = some w ∧ decodeWord w = .ok (.ldVxK x) := by
  by_cases ht : t = .step
  · subst ht
    change s.hostStep.2.wait = some x at hx
    rcases s.hostStep_state with hstep | hsame
    · exact ⟨rfl, fetched_ldVxK_of_step_starts_wait hs hstep hx⟩
    · rw [hsame, hs] at hx
      exact nomatch hx
  · rw [transact_wait_none font hs ht] at hx
    exact nomatch hx

/-! What a transaction on a waiting core writes (R115, R131, R136, R140). -/

/-- The elements a transaction may write while the core waits for a key: Step holds, so only the host's own writes are left. -/
def waitingWrites : Transaction → List Elem
  | .reset => [.mem, .x, .I, .pc, .stack, .sp, .DT, .ST, .key, .disp, .wait, .fault]
  | .load _ => [.mem]
  | .tick => [.DT, .ST]
  | .setKey _ _ => [.key]
  | .keyPress _ => [.x, .wait]
  | .step | .readDisplay | .readStatus => []

/-- While the core waits for a key, only KeyPress and Reset write the wait. -/
theorem wait_mem_waitingWrites_iff {t : Transaction} : .wait ∈ waitingWrites t ↔ t = .reset ∨ ∃ k, t = .keyPress k := by
  cases t <;> simp [waitingWrites]

theorem DT_mem_waitingWrites_iff {t : Transaction} : .DT ∈ waitingWrites t ↔ t = .reset ∨ t = .tick := by
  cases t <;> simp [waitingWrites]

theorem ST_mem_waitingWrites_iff {t : Transaction} : .ST ∈ waitingWrites t ↔ t = .reset ∨ t = .tick := by
  cases t <;> simp [waitingWrites]

/-- Apart from KeyPress and Reset, the host writes only the timers, the keypad and memory. -/
theorem waitingWrites_subset {t : Transaction} (hreset : t ≠ .reset) (hkey : ∀ k, t ≠ .keyPress k) :
    waitingWrites t ⊆ [.DT, .ST, .key, .mem] := by
  cases t with
  | reset => exact absurd rfl hreset
  | keyPress k => exact absurd rfl (hkey k)
  | _ => simp [waitingWrites]

/-- Without SetKey and Load either, the host writes only the timers. -/
theorem waitingWrites_subset_timers {t : Transaction} (hreset : t ≠ .reset) (hkey : ∀ k, t ≠ .keyPress k)
    (hset : ∀ k p, t ≠ .setKey k p) (hload : ∀ image, t ≠ .load image) : waitingWrites t ⊆ [.DT, .ST] := by
  cases t with
  | reset => exact absurd rfl hreset
  | keyPress k => exact absurd rfl (hkey k)
  | setKey k p => exact absurd rfl (hset k p)
  | load image => exact absurd rfl (hload image)
  | _ => simp [waitingWrites]

section waiting

variable {s : State} {x : Reg} (hwait : s.wait = some x)

include hwait

/-- A Step of a waiting core changes nothing: it is a Hold, or answers a record the core holds beside the wait (R63). -/
theorem State.hostStep_state_of_waiting : s.hostStep.2 = s := by
  have hidle : ¬ s.running := fun hrun => nomatch hrun.2.symm.trans hwait
  rcases step_cases s with ⟨r, -, hstep⟩ | ⟨-, -, hstep⟩ | ⟨hrun, -⟩ | ⟨w, hrun, -⟩ | ⟨w, i, hrun, -⟩
  · rw [State.hostStep_of_recorded hstep]
  · rw [State.hostStep_of_waiting hwait hstep]
  · exact absurd hrun hidle
  · exact absurd hrun hidle
  · exact absurd hrun hidle

theorem State.keyPress_of_waiting (k : Fin 16) : s.keyPress k = (s.setReg x (BitVec.ofNat 8 k.val)).setWait none := by
  rw [State.keyPress, hwait]

theorem sameBut_keyPress_of_waiting (k : Fin 16) : SameBut [.x, .wait] s (s.keyPress k) := by
  rw [State.keyPress_of_waiting hwait]
  exact ((sameBut_setReg s x _).mono (by simp)).trans ((sameBut_setWait _ none).mono (by simp))

/-- The frame of a transaction on a waiting core. -/
theorem transact_sameBut_of_waiting (font : Config.FontImage) (t : Transaction) :
    SameBut (waitingWrites t) s (transact font t s).2 := by
  cases t with
  | reset =>
    intro e he
    cases e with
    | injected | drawCount => rfl
    | _ => simp [waitingWrites] at he
  | load image => exact sameBut_load s image
  | step =>
    change SameBut [] s s.hostStep.2
    rw [State.hostStep_state_of_waiting hwait]
    exact SameBut.refl _ s
  | tick => exact sameBut_tick s
  | setKey k p => exact sameBut_setKey s k p
  | keyPress k => exact sameBut_keyPress_of_waiting hwait k
  | readDisplay | readStatus => exact SameBut.refl _ s

/-- The step of the invariant: a transaction that is neither KeyPress nor Reset keeps the wait. -/
theorem transact_keeps_wait (font : Config.FontImage) {t : Transaction} (ht : .wait ∉ waitingWrites t) :
    (transact font t s).2.wait = some x := by
  have hsame : (transact font t s).2.wait = s.wait := transact_sameBut_of_waiting hwait font t .wait ht
  exact hsame.trans hwait

/-- On a waiting core every transaction but Reset counts each timer down by the Ticks in it. -/
theorem transact_timers_of_waiting (font : Config.FontImage) {t : Transaction} (ht : t ≠ .reset) :
    (transact font t s).2.DT.toNat = s.DT.toNat - [t].count .tick ∧
    (transact font t s).2.ST.toNat = s.ST.toNat - [t].count .tick := by
  by_cases htick : t = .tick
  · subst htick
    obtain ⟨hDT, hST, -⟩ := s.tick_spec
    exact ⟨hDT, hST⟩
  · have hframe := transact_sameBut_of_waiting hwait font t
    have hDT : (transact font t s).2.DT = s.DT := hframe .DT (by simp [DT_mem_waitingWrites_iff, ht, htick])
    have hST : (transact font t s).2.ST = s.ST := hframe .ST (by simp [ST_mem_waitingWrites_iff, ht, htick])
    rw [hDT, hST, List.count_singleton, if_neg (by simpa using htick)]
    exact ⟨rfl, rfl⟩

end waiting

/-! Every schedule without KeyPress and Reset keeps the wait (R140). -/

/-- A waiting core keeps what no transaction of the schedule may write, if the wait is among it. -/
theorem runSchedule_sameBut_of_waiting (font : Config.FontImage) {c : List Elem} (hc : .wait ∉ c) {x : Reg}
    {ts : List Transaction} {s : State} (hwait : s.wait = some x) (hts : ∀ t ∈ ts, waitingWrites t ⊆ c) :
    SameBut c s (runSchedule font ts s) := by
  induction ts generalizing s with
  | nil => exact SameBut.refl c s
  | cons t ts ih =>
    obtain ⟨ht, hts⟩ := List.forall_mem_cons.1 hts
    have hkept := transact_keeps_wait hwait font fun hw => hc (ht hw)
    exact ((transact_sameBut_of_waiting hwait font t).mono ht).trans (ih hkept hts)

/-- The timers of a waiting core keep ticking: each counts down by the Ticks in the schedule, clamped at 0. -/
theorem runSchedule_timers_of_waiting (font : Config.FontImage) {x : Reg} {ts : List Transaction} {s : State}
    (hwait : s.wait = some x) (hts : ∀ t ∈ ts, .wait ∉ waitingWrites t) :
    (runSchedule font ts s).DT.toNat = s.DT.toNat - ts.count .tick ∧
    (runSchedule font ts s).ST.toNat = s.ST.toNat - ts.count .tick := by
  induction ts generalizing s with
  | nil => exact ⟨rfl, rfl⟩
  | cons t ts ih =>
    obtain ⟨ht, hts⟩ := List.forall_mem_cons.1 hts
    have hreset : t ≠ .reset := fun h => ht (wait_mem_waitingWrites_iff.2 (.inl h))
    obtain ⟨hDT, hST⟩ := transact_timers_of_waiting hwait font hreset
    obtain ⟨hDT', hST'⟩ := ih (transact_keeps_wait hwait font ht) hts
    have hcount : (t :: ts).count .tick = [t].count .tick + ts.count .tick := List.count_append (l₁ := [t])
    rw [runSchedule_cons, hDT', hST', hDT, hST, hcount, Nat.sub_sub, Nat.sub_sub]
    exact ⟨rfl, rfl⟩

/-! The end of a wait (R115). -/

/-- A KeyPress fills the waiting register with the key code, and writes no other register. -/
theorem reg_keyPress_of_waiting {s : State} {x : Reg} (hwait : s.wait = some x) (k : Fin 16) :
    ((s.keyPress k).reg x).toNat = k.val ∧ RegsSameBut [x] s (s.keyPress k) := by
  rw [State.keyPress_of_waiting hwait]
  refine ⟨?_, regsSameBut_setReg s x _⟩
  rw [State.reg_setWait, State.reg_setReg_same, BitVec.toNat_ofNat]
  exact Nat.mod_eq_of_lt (by omega)

/-- Settles O51: only FX0A writes the wait of an instruction; a waiting core holds, so a schedule changes only what its
transactions write themselves, and the wait is written by KeyPress and Reset alone. -/
theorem waitEndsOnlyByKeyPressOrReset : Obligations.WaitEndsOnlyByKeyPressOrReset := by
  unfold Obligations.WaitEndsOnlyByKeyPressOrReset
  refine ⟨fun _ _ _ _ hs hx => transact_starts_wait hs hx, fun font ts s x hwait hts => ?_⟩
  have hwrites : ∀ t ∈ ts, waitingWrites t ⊆ [.DT, .ST, .key, .mem] :=
    fun t ht => waitingWrites_subset (hts t ht).1 (hts t ht).2
  have hframe : SameBut [.DT, .ST, .key, .mem] s (runSchedule font ts s) :=
    runSchedule_sameBut_of_waiting font (by simp) hwait hwrites
  have hkept : (runSchedule font ts s).wait = some x := (hframe .wait (by simp)).trans hwait
  have hregs : ∀ r, (runSchedule font ts s).reg r = s.reg r := hframe .x (by simp)
  obtain ⟨hDT, hST⟩ := runSchedule_timers_of_waiting font hwait fun t ht hw => by simpa using hwrites t ht hw
  refine ⟨hkept, hDT, hST, hframe, fun hquiet => ?_, fun k => ?_, rfl⟩
  · refine runSchedule_sameBut_of_waiting font (by simp) hwait fun t ht => ?_
    obtain ⟨hreset, hkey⟩ := hts t ht
    obtain ⟨hset, hload⟩ := hquiet t ht
    exact waitingWrites_subset_timers hreset hkey hset hload
  · obtain ⟨hx, hother⟩ := reg_keyPress_of_waiting hkept k
    refine ⟨State.keyPress_wait _ k, hx, fun r hr => (hother r hr).trans (hregs r), ?_⟩
    exact (hframe.mono (by simp)).trans ((sameBut_keyPress_of_waiting hkept k).mono (by simp))

end Sys2Proof.Machine
end

section
/-! PROOFS, family other: 30_encoding.md. The round trips of decoding and encoding, the illegal words, the opcode table, and
the lines of the assembler. -/

namespace Sys2Proof

/-! The round trips (R53, R57, R60). -/

/-- Decoding an instruction's bytes gives it back, and the bytes after it. -/
theorem decodeBytes_encodeBytes_append (i : Instr) (rest : List Byte) :
    decodeBytes (encodeBytes i ++ rest) = .ok (i, rest) := by
  rw [encodeBytes, decodeBytes_wordBytes, decodeWord_ok_iff_eq_encode.2 rfl]
  rfl

/-- Settles O2: the word of an instruction's bytes is its encoding, which decodes to it. -/
theorem decodeOfEncodedBytesIsTheInstruction : Obligations.DecodeOfEncodedBytesIsTheInstruction := by
  unfold Obligations.DecodeOfEncodedBytesIsTheInstruction
  exact decodeBytes_encodeBytes_append

/-- Settles O3: exactly the word of an instruction decodes to it. -/
theorem encodeOfDecodedWordIsTheWord : Obligations.EncodeOfDecodedWordIsTheWord := by
  unfold Obligations.EncodeOfDecodedWordIsTheWord
  exact fun _ _ h => (decodeWord_ok_iff_eq_encode.1 h).symm

/-- Settles O1: each pair of bytes is the encoding of the instruction named, so the round trip decodes it. -/
theorem sampleWordsDecode : Obligations.SampleWordsDecode := by
  unfold Obligations.SampleWordsDecode
  have hround := fun i => decodeBytes_encodeBytes_append i []
  exact ⟨hround .cls, hround (.jp 0x234), hround (.call 0xABC), hround (.seImm 0xA 0x07), hround (.sneImm 0xB 0x80),
    hround (.seReg 1 2), hround (.ldImm 0xF 0x01), hround (.addImm 1 0xFF), hround (.addReg 1 2), hround (.sneReg 1 2),
    hround (.ldI 0x123), hround (.jpV0 0x300), hround (.rnd 3 0x0F), hround (.drw 0 1 2), hround (.skp 5),
    hround (.storeRegs 2)⟩

/-! The illegal words (R58): where each dispatch refuses. -/

section refusal

variable {f : Fields}

theorem selectFamily0_eq_none_iff : selectFamily0 f = none ↔ f.NNN.toNat ≠ 0x0E0 ∧ f.NNN.toNat ≠ 0x0EE := by
  unfold selectFamily0
  split
  case h_1 h | h_2 h => simp [h]
  case h_3 h h' => exact ⟨fun _ => ⟨h, h'⟩, fun _ => rfl⟩

theorem selectFamily8_eq_none_iff :
    selectFamily8 f = none ↔ f.N.val ∈ [0x8, 0x9, 0xA, 0xB, 0xC, 0xD, 0xF] := by
  obtain ⟨_, _, _, n, _, _⟩ := f
  fin_cases n <;> simp [selectFamily8]

theorem selectFamilyE_eq_none_iff : selectFamilyE f = none ↔ f.NN.toNat ∉ [0x9E, 0xA1] := by
  unfold selectFamilyE
  split <;> simp_all

theorem selectFamilyF_eq_none_iff :
    selectFamilyF f = none ↔ f.NN.toNat ∉ [0x07, 0x0A, 0x15, 0x18, 0x1E, 0x29, 0x33, 0x55, 0x65] := by
  unfold selectFamilyF
  split <;> simp_all

theorem selectIfZero_eq_none_iff {i : Instr} : selectIfZero f i = none ↔ f.N.val ≠ 0x0 := by
  simp [selectIfZero]

end refusal

/-- The dispatch refuses exactly the words of R58's list, family by family; the families not listed refuse no word. -/
theorem select_fields_eq_none_iff (w : Word) :
    select (fields w) = none ↔
      (bits w 15 12 = 0x0 ∧ bits w 11 0 ≠ 0x0E0 ∧ bits w 11 0 ≠ 0x0EE) ∨
      (bits w 15 12 = 0x5 ∧ bits w 3 0 ≠ 0x0) ∨
      (bits w 15 12 = 0x8 ∧ bits w 3 0 ∈ [0x8, 0x9, 0xA, 0xB, 0xC, 0xD, 0xF]) ∨
      (bits w 15 12 = 0x9 ∧ bits w 3 0 ≠ 0x0) ∨
      (bits w 15 12 = 0xE ∧ bits w 7 0 ∉ [0x9E, 0xA1]) ∨
      (bits w 15 12 = 0xF ∧ bits w 7 0 ∉ [0x07, 0x0A, 0x15, 0x18, 0x1E, 0x29, 0x33, 0x55, 0x65]) := by
  have hlt : (fields w).op < 16 := bits_15_12_lt w
  rw [← fields_op, ← fields_NNN, ← fields_NN, ← fields_N]
  unfold select
  split
  case h_1 hop => simp [hop, selectFamily0_eq_none_iff]
  case h_6 hop | h_10 hop => simp [hop, selectIfZero_eq_none_iff]
  case h_9 hop => simp [hop, selectFamily8_eq_none_iff]
  case h_15 hop => simp [hop, selectFamilyE_eq_none_iff]
  case h_16 hop => simp [hop, selectFamilyF_eq_none_iff]
  case h_17 => interval_cases hop : (fields w).op <;> contradiction
  case h_2 hop | h_3 hop | h_4 hop | h_5 hop | h_7 hop | h_8 hop | h_11 hop | h_12 hop | h_13 hop | h_14 hop => simp [hop]

/-- Every word decodes to an instruction or is refused with that word (R55, R58). -/
theorem decodeWord_ok_or_refused (w : Word) : (∃ i, decodeWord w = .ok i) ∨ decodeWord w = .error (.unknownOpcode w) := by
  rw [decodeWord_error_iff]
  cases h : select (fields w) with
  | none => exact .inr rfl
  | some i => exact .inl ⟨i, decodeWord_ok_iff.2 h⟩

/-- Settles O4: the decoder refuses exactly where its dispatch selects nothing. -/
theorem illegalWordsAreExactlyThoseListed : Obligations.IllegalWordsAreExactlyThoseListed := by
  unfold Obligations.IllegalWordsAreExactlyThoseListed
  exact fun w => ⟨decodeWord_ok_or_refused w, decodeWord_error_iff.trans (select_fields_eq_none_iff w)⟩

end Sys2Proof
namespace Sys2Proof

/-! The opcode table (R57). -/

/-- Every word with the row's values in its fixed fields decodes to an instruction of the row. -/
def Row.Decodes (r : Row) : Prop := ∀ w, r.selects w = true → ∃ i, decodeWord w = .ok i ∧ i.mnemonic = r.mnemonic

theorem selects_singleton_iff {m : String} {hi lo v : Nat} {w : Word} :
    (Row.mk m [⟨hi, lo, v⟩]).selects w = true ↔ bits w hi lo = v := by
  simp [Row.selects]

theorem selects_pair_iff {m : String} {hi lo v hi' lo' v' : Nat} {w : Word} :
    (Row.mk m [⟨hi, lo, v⟩, ⟨hi', lo', v'⟩]).selects w = true ↔ bits w hi lo = v ∧ bits w hi' lo' = v' := by
  simp [Row.selects]

/-- A row that fixes the whole word. -/
theorem Row.Decodes.ofWord {i : Instr} {v : Nat} (hi : (encode i).toNat = v) : (Row.mk i.mnemonic [⟨15, 0, v⟩]).Decodes := by
  intro w hw
  have hbits : w.toNat / 2 ^ 0 % 2 ^ 16 = v := selects_singleton_iff.1 hw
  rw [pow_zero, Nat.div_one, Nat.mod_eq_of_lt w.isLt, ← hi] at hbits
  exact ⟨i, decodeWord_ok_iff_eq_encode.2 (BitVec.eq_of_toNat_eq hbits), rfl⟩

section shapes

variable {m : String} {op : Nat}

theorem Row.Decodes.ofShapeA {f : Addr12 → Instr} (hf : ∀ a, encode (f a) = wordA op a ∧ (f a).mnemonic = m) :
    (Row.mk m [⟨15, 12, op⟩]).Decodes := by
  intro w hw
  obtain ⟨henc, hm⟩ := hf (fields w).NNN
  exact ⟨_, decodeWord_ok_iff_eq_encode.2 ((eq_wordA_of_fields (selects_singleton_iff.1 hw)).trans henc.symm), hm⟩

theorem Row.Decodes.ofShapeXK {f : Reg → Byte → Instr}
    (hf : ∀ x k, encode (f x k) = wordXK op x k ∧ (f x k).mnemonic = m) :
    (Row.mk m [⟨15, 12, op⟩]).Decodes := by
  intro w hw
  obtain ⟨henc, hm⟩ := hf (fields w).X (fields w).NN
  exact ⟨_, decodeWord_ok_iff_eq_encode.2 ((eq_wordXK_of_fields (selects_singleton_iff.1 hw)).trans henc.symm), hm⟩

theorem Row.Decodes.ofShapeXY {n : Nat} {f : Reg → Reg → Instr}
    (hf : ∀ x y, encode (f x y) = wordXY op x y n ∧ (f x y).mnemonic = m) :
    (Row.mk m [⟨3, 0, n⟩, ⟨15, 12, op⟩]).Decodes := by
  intro w hw
  obtain ⟨hn, hop⟩ := selects_pair_iff.1 hw
  obtain ⟨henc, hm⟩ := hf (fields w).X (fields w).Y
  exact ⟨_, decodeWord_ok_iff_eq_encode.2 ((eq_wordXY_of_fields hop ((fields_N w).trans hn)).trans henc.symm), hm⟩

theorem Row.Decodes.ofShapeXYN {f : Reg → Reg → Fin 16 → Instr}
    (hf : ∀ x y n, encode (f x y n) = wordXY op x y n.val ∧ (f x y n).mnemonic = m) :
    (Row.mk m [⟨15, 12, op⟩]).Decodes := by
  intro w hw
  obtain ⟨henc, hm⟩ := hf (fields w).X (fields w).Y (fields w).N
  exact ⟨_, decodeWord_ok_iff_eq_encode.2 ((eq_wordXY_of_fields (selects_singleton_iff.1 hw) rfl).trans henc.symm), hm⟩

theorem Row.Decodes.ofShapeXF {low : Nat} {f : Reg → Instr}
    (hf : ∀ x, encode (f x) = wordXF op x low ∧ (f x).mnemonic = m) :
    (Row.mk m [⟨7, 0, low⟩, ⟨15, 12, op⟩]).Decodes := by
  intro w hw
  obtain ⟨hlow, hop⟩ := selects_pair_iff.1 hw
  obtain ⟨henc, hm⟩ := hf (fields w).X
  exact ⟨_, decodeWord_ok_iff_eq_encode.2 ((eq_wordXF_of_fields hop ((fields_NN w).trans hlow)).trans henc.symm), hm⟩

end shapes

/-- Every row selects only words of its instruction, each by the lemma of its shape. -/
theorem opcodeTable_decodes : ∀ r ∈ opcodeTable, r.Decodes := by
  simp only [opcodeTable, List.cons_append, List.nil_append, List.forall_mem_cons, List.not_mem_nil, false_imp_iff,
    implies_true, and_true]
  exact ⟨.ofWord (i := .cls) rfl, .ofWord (i := .ret) rfl,
    .ofShapeA (f := .jp) fun _ => ⟨rfl, rfl⟩, .ofShapeA (f := .call) fun _ => ⟨rfl, rfl⟩,
    .ofShapeXK (f := .seImm) fun _ _ => ⟨rfl, rfl⟩, .ofShapeXK (f := .sneImm) fun _ _ => ⟨rfl, rfl⟩,
    .ofShapeXY (f := .seReg) fun _ _ => ⟨rfl, rfl⟩, .ofShapeXK (f := .ldImm) fun _ _ => ⟨rfl, rfl⟩,
    .ofShapeXK (f := .addImm) fun _ _ => ⟨rfl, rfl⟩, .ofShapeXY (f := .ldReg) fun _ _ => ⟨rfl, rfl⟩,
    .ofShapeXY (f := .orReg) fun _ _ => ⟨rfl, rfl⟩, .ofShapeXY (f := .andReg) fun _ _ => ⟨rfl, rfl⟩,
    .ofShapeXY (f := .xorReg) fun _ _ => ⟨rfl, rfl⟩, .ofShapeXY (f := .addReg) fun _ _ => ⟨rfl, rfl⟩,
    .ofShapeXY (f := .subReg) fun _ _ => ⟨rfl, rfl⟩, .ofShapeXY (f := .shr) fun _ _ => ⟨rfl, rfl⟩,
    .ofShapeXY (f := .subn) fun _ _ => ⟨rfl, rfl⟩, .ofShapeXY (f := .shl) fun _ _ => ⟨rfl, rfl⟩,
    .ofShapeXY (f := .sneReg) fun _ _ => ⟨rfl, rfl⟩, .ofShapeA (f := .ldI) fun _ => ⟨rfl, rfl⟩,
    .ofShapeA (f := .jpV0) fun _ => ⟨rfl, rfl⟩, .ofShapeXK (f := .rnd) fun _ _ => ⟨rfl, rfl⟩,
    .ofShapeXYN (f := .drw) fun _ _ _ => ⟨rfl, rfl⟩, .ofShapeXF (f := .skp) fun _ => ⟨rfl, rfl⟩,
    .ofShapeXF (f := .sknp) fun _ => ⟨rfl, rfl⟩, .ofShapeXF (f := .ldVxDT) fun _ => ⟨rfl, rfl⟩,
    .ofShapeXF (f := .ldVxK) fun _ => ⟨rfl, rfl⟩, .ofShapeXF (f := .ldDTVx) fun _ => ⟨rfl, rfl⟩,
    .ofShapeXF (f := .ldSTVx) fun _ => ⟨rfl, rfl⟩, .ofShapeXF (f := .addI) fun _ => ⟨rfl, rfl⟩,
    .ofShapeXF (f := .ldF) fun _ => ⟨rfl, rfl⟩, .ofShapeXF (f := .ldB) fun _ => ⟨rfl, rfl⟩,
    .ofShapeXF (f := .storeRegs) fun _ => ⟨rfl, rfl⟩, .ofShapeXF (f := .loadRegs) fun _ => ⟨rfl, rfl⟩⟩

theorem nodup_mnemonics : (opcodeTable.map Row.mnemonic).Nodup := by decide

open Laws.EncodeMatchesRow in
/-- The word of every instruction is selected by the row of its mnemonic. -/
theorem encode_matches_row (i : Instr) : Statement i := by
  cases i
  exacts [cls, ret, jp _, call _, seImm _ _, sneImm _ _, seReg _ _, ldImm _ _, addImm _ _, ldReg _ _, orReg _ _,
    andReg _ _, xorReg _ _, addReg _ _, subReg _ _, shr _ _, subn _ _, shl _ _, sneReg _ _, ldI _, jpV0 _, rnd _ _,
    drw _ _ _, skp _, sknp _, ldVxDT _, ldVxK _, ldDTVx _, ldSTVx _, addI _, ldF _, ldB _, storeRegs _, loadRegs _]

/-- Settles O5: a row's words decode to its instruction, and an instruction's word is selected by its row, the only one with
its mnemonic. -/
theorem opcodeTableRowSelectsItsInstruction : Obligations.OpcodeTableRowSelectsItsInstruction := by
  unfold Obligations.OpcodeTableRowSelectsItsInstruction
  refine ⟨fun r w hr => ⟨opcodeTable_decodes r hr w, ?_⟩, nodup_mnemonics, fun i => ?_⟩
  · rintro ⟨i, hd, hm⟩
    obtain ⟨r', hr', hm', hsel⟩ := encode_matches_row i
    obtain rfl := List.inj_on_of_nodup_map nodup_mnemonics hr' hr (hm'.trans hm)
    rwa [decodeWord_ok_iff_eq_encode.1 hd]
  · obtain ⟨r, hr, hm, -⟩ := encode_matches_row i
    exact ⟨r, hr, hm⟩

end Sys2Proof

namespace Sys2Proof.Machine

/-! The assembler (R61, R62). -/

@[simp] theorem asmReg_val (x : Reg) : asmReg x.val = some x := by simp [asmReg]

@[simp] theorem asmByte_toNat (k : Byte) : asmByte k.toNat = some k := by simp [asmByte, k.isLt]

@[simp] theorem asmAddr_toNat (a : Addr12) : asmAddr a.toNat = some a := by simp [asmAddr, a.isLt]

/-! An operand is read exactly when it fits its width. -/

@[simp] theorem isSome_asmReg (n : Nat) : (asmReg n).isSome = WellFormed.nibble n := by
  by_cases h : n < 16 <;> simp [asmReg, WellFormed.nibble, h]

@[simp] theorem isSome_asmByte (n : Nat) : (asmByte n).isSome = WellFormed.byte n := by
  by_cases h : n < 256 <;> simp [asmByte, WellFormed.byte, h]

@[simp] theorem isSome_asmAddr (n : Nat) : (asmAddr n).isSome = WellFormed.addr n := by
  by_cases h : n < 4096 <;> simp [asmAddr, WellFormed.addr, h]

@[simp] theorem isSome_asmX (f : Reg → Instr) (x : Nat) : (asmX f x).isSome = WellFormed.nibble x := by
  simp [asmX]

@[simp] theorem isSome_asmA (f : Addr12 → Instr) (a : Nat) : (asmA f a).isSome = WellFormed.addr a := by
  simp [asmA]

/-- Two operands in sequence are both read exactly when each is. -/
theorem isSome_bind_map {α β : Type} (o : Option α) (p : Option β) (f : α → β → Instr) :
    (o.bind fun a => p.map (f a)).isSome = (o.isSome && p.isSome) := by
  cases o <;> cases p <;> rfl

@[simp] theorem isSome_asmXY (f : Reg → Reg → Instr) (x y : Nat) :
    (asmXY f x y).isSome = (WellFormed.nibble x && WellFormed.nibble y) := by
  rw [asmXY, isSome_bind_map, isSome_asmReg, isSome_asmReg]

@[simp] theorem isSome_asmXK (f : Reg → Byte → Instr) (x k : Nat) :
    (asmXK f x k).isSome = (WellFormed.nibble x && WellFormed.byte k) := by
  rw [asmXK, isSome_bind_map, isSome_asmReg, isSome_asmByte]

/-- The line of DXYN reads its nibble first and its registers after it. -/
theorem isSome_instrOfAsm_drw (x y n : Nat) :
    (instrOfAsm (.drw x y n)).isSome = (Asm.drw x y n).wellFormed := by
  rw [instrOfAsm, Asm.wellFormed, ← isSome_asmReg n]
  cases asmReg n <;> simp

/-- A line that is no data line stands for an instruction exactly when it is well-formed. -/
theorem isSome_instrOfAsm {l : Asm} (h : dataOfAsm l = none) : (instrOfAsm l).isSome = l.wellFormed := by
  cases l with
  | dataWord w | dataByte b => cases h
  | drw x y n => exact isSome_instrOfAsm_drw x y n
  | _ => simp [instrOfAsm, Asm.wellFormed]

/-- The line of an instruction stands for it. -/
theorem instrOfAsm_asmOfInstr (i : Instr) : instrOfAsm (asmOfInstr i) = some i := by
  cases i <;> simp [asmOfInstr, instrOfAsm, asmX, asmA, asmXY, asmXK]

theorem dataOfAsm_asmOfInstr (i : Instr) : dataOfAsm (asmOfInstr i) = none := by cases i <;> rfl

theorem wellFormed_asmOfInstr (i : Instr) : (asmOfInstr i).wellFormed = true := by
  rw [← isSome_instrOfAsm (dataOfAsm_asmOfInstr i), instrOfAsm_asmOfInstr, Option.isSome_some]

theorem bytesOfAsm_asmOfInstr (i : Instr) : bytesOfAsm (asmOfInstr i) = some (encodeBytes i) := by
  rw [bytesOfAsm, if_pos (wellFormed_asmOfInstr i), dataOfAsm_asmOfInstr, instrOfAsm_asmOfInstr]
  rfl

/-- A line has bytes exactly when it is well-formed: a data line has its own, another line those of its instruction. -/
theorem isSome_bytesOfAsm (l : Asm) : (bytesOfAsm l).isSome = l.wellFormed := by
  rw [bytesOfAsm]
  cases hdata : dataOfAsm l with
  | none =>
    have hinstr := isSome_instrOfAsm hdata
    by_cases hwf : l.wellFormed <;> simp_all
  | some bs => by_cases hwf : l.wellFormed <;> simp [hwf]

/-- Settles O6: operands are read exactly within their widths, so a line and its instruction determine each other. -/
theorem assemblerLinesAndInstructionsAgree : Obligations.AssemblerLinesAndInstructionsAgree := by
  unfold Obligations.AssemblerLinesAndInstructionsAgree
  refine ⟨fun i => ⟨wellFormed_asmOfInstr i, instrOfAsm_asmOfInstr i, bytesOfAsm_asmOfInstr i⟩, isSome_bytesOfAsm,
    fun x => ⟨?_, ?_⟩⟩ <;>
  · rw [instrOfAsm, asmXY, asmReg_val]
    rfl

end Sys2Proof.Machine
end

section
/-! PROOFS, family other: faults and the invariant. What a Step of a running core can do, the precise fault, the
invariant of 10_state.md over every host transaction, and the recorded fault over every schedule. -/

namespace Sys2Proof.Machine

/-! The fault an instruction raises (R120, R122). -/

/-- When an instruction faults depends on the stack depth and on `I` alone. -/
theorem faultsWith_congr {s t : State} (hsp : t.sp = s.sp) (hI : t.I = s.I) (i : Instr) (k : FaultKind) :
    faultsWith t i k ↔ faultsWith s i k := by
  cases i <;> simp only [faultsWith, accessOutside, hsp, hI]

/-- The state after a faulting instruction: the record is set and nothing else. -/
theorem eq_setFault_of_faultsWith {i : Instr} {s t : State} {k : FaultKind} (hk : faultsWith s i k)
    (ht : exec i s = .next t) : t = s.setFault (some ⟨k, s.pc - 2, some (encode i)⟩) := by
  rw [exec_of_faultsWith hk, raiseIn_eq] at ht
  exact (Host.Outcome.next.inj ht).symm

/-- An instruction whose condition does not hold leaves the fault element as it was. -/
theorem fault_eq_of_not_faultsWith {i : Instr} {s t : State} (hno : ∀ k, ¬ faultsWith s i k) (ht : exec i s = .next t) :
    t.fault = s.fault := by
  obtain ⟨u, hu, hfault⟩ := exec_of_not_faultsWith hno
  obtain rfl := Host.Outcome.next.inj (ht.symm.trans hu)
  exact hfault

/-- Settles O11: an instruction answers a next state, which is the fault entry of its condition or keeps the fault element. -/
theorem instructionFaultsExactlyOnItsCondition : Obligations.InstructionFaultsExactlyOnItsCondition := by
  unfold Obligations.InstructionFaultsExactlyOnItsCondition
  intro i s hs
  obtain ⟨t, ht, -⟩ := exec_sameBut_writes i s
  refine ⟨t, ht, fun k hk => ?_, fun hno => (fault_eq_of_not_faultsWith hno ht).trans hs⟩
  obtain rfl := eq_setFault_of_faultsWith hk ht
  exact ⟨rfl, sameBut_setFault s _⟩

/-! A Step of a running core (R63 to R65, R123). -/

theorem State.fetchWord_eq_none_iff {s : State} : s.fetchWord = none ↔ 0xFFE < s.pc.toNat := by
  rw [State.fetchWord_eq]
  split <;> simp <;> omega

theorem State.pc_le_of_fetched {s : State} {w : Word} (h : s.fetchWord = some w) : s.pc.toNat ≤ 0xFFE := by
  by_contra hpc
  rw [State.fetchWord_eq_none_iff.2 (by omega)] at h
  exact nomatch h

/-- Why a Step that has fetched the word `w` faults with kind `k`: the word is refused, or its instruction's condition holds. -/
def StepCause (s : State) (w : Word) (k : FaultKind) : Prop :=
  (k = .unknownOpcode ∧ decodeWord w = .error (.unknownOpcode w)) ∨ ∃ i, decodeWord w = .ok i ∧ faultsWith s i k

/-- The three ends of a Step of a running core: the decoded instruction completes; the fetch is out of range; or a fault is
raised with the fetched word, `pc` past it. -/
theorem step_cases_of_running {s : State} (hrun : s.running) :
    (∃ t w i, s.fetchWord = some w ∧ decodeWord w = .ok i ∧ (∀ k, ¬ faultsWith s i k) ∧
      exec i (s.setPc (s.pc + 2)) = .next t ∧ step s = .next t ∧ t.fault = none) ∨
    (s.fetchWord = none ∧ step s = .next (s.setFault (some ⟨.memoryBounds, s.pc, none⟩))) ∨
    (∃ w k, s.fetchWord = some w ∧ StepCause s w k ∧
      step s = .next ((s.setPc (s.pc + 2)).setFault (some ⟨k, s.pc, some w⟩))) := by
  obtain ⟨hfault, hwait⟩ := id hrun
  rcases step_cases s with ⟨r, hr, -⟩ | ⟨-, ⟨q, hq⟩, -⟩ | ⟨-, hnone, hs⟩ | ⟨w, -, hw, hd, hs⟩ | ⟨w, i, -, hw, hd, hs⟩
  · exact nomatch hr.symm.trans hfault
  · exact nomatch hq.symm.trans hwait
  · exact .inr (.inl ⟨hnone, hs⟩)
  · exact .inr (.inr ⟨w, .unknownOpcode, hw, .inl ⟨rfl, hd⟩, hs⟩)
  · rcases exec_raises_or_completes i (s.setPc (s.pc + 2)) with ⟨k, hk, hraise⟩ | ⟨hno, t, ht, hkept⟩
    · refine .inr (.inr ⟨w, k, hw, .inr ⟨i, hd, hk⟩, ?_⟩)
      rw [hs, hraise, raiseIn_eq, State.setPc_pc, BitVec.add_sub_cancel, decodeWord_ok_iff_eq_encode.1 hd]
    · exact .inl ⟨t, w, i, hw, hd, hno, ht, hs.trans ht, hkept.trans hfault⟩

/-- A Step of a core that is not running answers no state but the one it found (R63). -/
theorem eq_of_step_of_not_running {s t : State} (hidle : ¬ s.running) (ht : step s = .next t) : t = s := by
  rcases step_cases s with ⟨r, -, hs⟩ | ⟨-, -, hs⟩ | ⟨hrun, -⟩ | ⟨w, hrun, -⟩ | ⟨w, i, hrun, -⟩
  · exact nomatch hs.symm.trans ht
  · exact Host.Outcome.next.inj (ht.symm.trans hs)
  · exact absurd hrun hidle
  · exact absurd hrun hidle
  · exact absurd hrun hidle

/-- Settles O10: each of the three ends of a Step of a running core says whether a record is left, and which. -/
theorem stepFaultIsPreciseAndHasAListedCause : Obligations.StepFaultIsPreciseAndHasAListedCause := by
  unfold Obligations.StepFaultIsPreciseAndHasAListedCause
  intro s hrun
  rcases step_cases_of_running hrun with ⟨t, w, i, hw, hd, hno, -, hs, hnone⟩ | ⟨hfetch, hs⟩ | ⟨w, k, hw, hcause, hs⟩
  · refine ⟨t, hs, ⟨fun _ => ⟨w, i, hw, hd, hno⟩, fun _ => hnone⟩, fun r hr => ?_⟩
    exact nomatch hr.symm.trans hnone
  · refine ⟨_, hs, ⟨nofun, ?_⟩, ?_⟩
    · rintro ⟨w, i, hw, -⟩
      exact nomatch hw.symm.trans hfetch
    · rintro r ⟨rfl⟩
      exact ⟨rfl, (sameBut_setFault s _).mono (by simp), .inl ⟨State.fetchWord_eq_none_iff.1 hfetch, rfl, rfl, rfl⟩⟩
  · refine ⟨_, hs, ⟨nofun, ?_⟩, ?_⟩
    · rintro ⟨w', i, hw', hd, hno⟩
      obtain rfl := Option.some.inj (hw.symm.trans hw')
      rcases hcause with ⟨-, hrefused⟩ | ⟨j, hj, hk⟩
      · exact nomatch hd.symm.trans hrefused
      · obtain rfl := Except.ok.inj (hj.symm.trans hd)
        exact absurd hk (hno k)
    · rintro r ⟨rfl⟩
      exact ⟨rfl, sameBut_setPc_setFault s _ _, .inr ⟨w, hw, rfl, rfl, hcause⟩⟩

/-! BNNN's sum (R76). -/

theorem toNat_zext16 (v : Byte) : (zext16 v).toNat = v.toNat := by
  rw [zext16, BitVec.toNat_setWidth_of_le (by decide)]

/-- The sum BNNN forms is exact: it needs no more than 16 bits. -/
theorem toNat_addrOf_add_zext16 (nnn : Addr12) (v : Byte) : (addrOf nnn + zext16 v).toNat = nnn.toNat + v.toNat := by
  have hnnn := nnn.isLt
  have hv := v.isLt
  rw [BitVec.toNat_add, toNat_addrOf, toNat_zext16]
  omega

theorem toNat_addrOf_add_zext16_le (nnn : Addr12) (v : Byte) : (addrOf nnn + zext16 v).toNat ≤ 0x10FE := by
  have hnnn := nnn.isLt
  have hv := v.isLt
  rw [toNat_addrOf_add_zext16]
  omega

/-! What a completed instruction leaves in memory, in `pc` and on the stack (R17, R20, R25). -/

theorem State.pop_mem {s t : State} {v : Word} (h : s.pop = some (v, t)) : t.mem = s.mem := by
  rw [State.pop] at h
  split at h
  · cases h
    rfl
  · cases h

theorem State.push_mem {s t : State} {v : Word} (h : s.push v = some t) : t.mem = s.mem := by
  rw [State.push] at h
  split at h
  · cases h
    rfl
  · cases h

/-- A call with room on the stack pushes `pc` and jumps, and changes nothing else (R70). -/
theorem exec_call_of_room {s : State} (nnn : Addr12) (hsp : s.sp.val < 16) :
    ∃ t, exec (.call nnn) s = .next t ∧ t.mem = s.mem ∧ t.stack = s.stack.set s.sp.val s.pc ∧ t.sp.val = s.sp.val + 1 ∧
      t.pc = addrOf nnn ∧ SameBut [.stack, .sp, .pc] s t := by
  obtain ⟨t, hpush, htsp, hstack, hframe⟩ := push_below s.pc hsp
  refine ⟨t.setPc (addrOf nnn), by rw [exec, execCall, hpush], (State.push_mem hpush : t.mem = s.mem), hstack, htsp, rfl, ?_⟩
  exact (hframe.mono (by simp)).trans ((sameBut_setPc t _).mono (by simp))

section completed

variable {i : Instr} {s t : State} (hno : ∀ k, ¬ faultsWith s i k) (ht : exec i s = .next t)

include hno ht

/-- A completed instruction keeps memory canonical: it writes none, or a block inside memory. -/
theorem wf_mem_of_completed (hs : s.mem.wf = true) : t.mem.wf = true := by
  cases i with
  | ret =>
    have hsp : 0 < s.sp.val := Nat.pos_of_ne_zero fun h0 => hno _ ⟨rfl, h0⟩
    obtain ⟨u, hpop, -⟩ := pop_above hsp
    rw [exec, execRet, hpop] at ht
    obtain rfl := Host.Outcome.next.inj ht
    rwa [State.setPc_mem, State.pop_mem hpop]
  | call nnn =>
    have hne : s.sp.val ≠ 16 := fun h16 => hno _ ⟨rfl, h16⟩
    obtain ⟨u, hu, hmem, -⟩ := exec_call_of_room (s := s) nnn (by omega)
    obtain rfl := Host.Outcome.next.inj (hu.symm.trans ht)
    rwa [hmem]
  | drw x y n =>
    have hin := checkRange_of_not_accessOutside fun hout => hno _ ⟨rfl, hout⟩
    rw [exec, execDrw, if_pos hin] at ht
    obtain rfl := Host.Outcome.next.inj ht
    exact hs
  | ldB x =>
    have hin := checkRange_of_not_accessOutside fun hout => hno _ ⟨rfl, hout⟩
    rw [exec, execLdB, if_pos hin] at ht
    obtain rfl := Host.Outcome.next.inj ht
    exact State.wf_writeBytes hs hin
  | storeRegs x =>
    have hin : checkRange s.base (blockSize x) = true := checkRange_of_not_accessOutside fun hout => hno _ ⟨rfl, hout⟩
    rw [exec, execStoreRegs, if_pos hin] at ht
    obtain rfl := Host.Outcome.next.inj ht
    exact State.wf_writeBytes hs (by rwa [State.length_regBlock])
  | loadRegs x =>
    have hin : checkRange s.base (blockSize x) = true := checkRange_of_not_accessOutside fun hout => hno _ ⟨rfl, hout⟩
    rw [exec, execLoadRegs, if_pos hin, State.setRegsFrom_eq] at ht
    obtain rfl := Host.Outcome.next.inj ht
    exact hs
  | seImm | sneImm | seReg | sneReg | skp | sknp =>
    obtain rfl := Host.Outcome.next.inj ht
    rwa [State.skipIf_eq]
  | _ =>
    obtain rfl := Host.Outcome.next.inj ht
    exact hs

/-- What a completed instruction can leave in `pc`: what the fetch set, a skip past it, a stack entry, or a target of at most
0x10FE, the largest sum BNNN forms. -/
theorem pc_of_completed :
    t.pc = s.pc ∨ t.pc = s.pc + 2 ∨ (∃ k : Fin 16, t.pc = s.stack[k.val]) ∨ t.pc.toNat ≤ 0x10FE := by
  cases i with
  | ret =>
    have hsp : s.sp.val ≠ 0 := fun h0 => hno _ ⟨rfl, h0⟩
    obtain ⟨u, hu, hpc, -⟩ := exec_ret_of_depth (s := s) ⟨s.sp.val - 1, by omega⟩ (by simp only; omega)
    obtain rfl := Host.Outcome.next.inj (hu.symm.trans ht)
    exact .inr (.inr (.inl ⟨_, hpc⟩))
  | call nnn =>
    have hne : s.sp.val ≠ 16 := fun h16 => hno _ ⟨rfl, h16⟩
    obtain ⟨u, hu, -, -, -, hpc, -⟩ := exec_call_of_room (s := s) nnn (by omega)
    obtain rfl := Host.Outcome.next.inj (hu.symm.trans ht)
    have hle := toNat_addrOf_le nnn
    exact .inr (.inr (.inr (by rw [hpc]; omega)))
  | jp nnn =>
    obtain rfl := Host.Outcome.next.inj ht
    have hle := toNat_addrOf_le nnn
    exact .inr (.inr (.inr (by rw [State.setPc_pc]; omega)))
  | jpV0 nnn =>
    obtain rfl := Host.Outcome.next.inj ht
    exact .inr (.inr (.inr (toNat_addrOf_add_zext16_le nnn _)))
  | seImm | sneImm | seReg | sneReg | skp | sknp =>
    obtain rfl := Host.Outcome.next.inj ht
    rw [State.skipIf_pc]
    split
    · exact .inr (.inl rfl)
    · exact .inl rfl
  | _ => exact .inl (sameBut_writes_of_exec ht .pc (by simp [writes]))

/-- A completed instruction leaves the stack entries as they were, or with the current `pc` pushed. -/
theorem stack_of_completed : t.stack = s.stack ∨ ∃ k : Fin 16, t.stack = s.stack.set k.val s.pc := by
  cases i with
  | call nnn =>
    have hne : s.sp.val ≠ 16 := fun h16 => hno _ ⟨rfl, h16⟩
    obtain ⟨u, hu, -, hstack, -⟩ := exec_call_of_room (s := s) nnn (by omega)
    obtain rfl := Host.Outcome.next.inj (hu.symm.trans ht)
    exact .inr ⟨⟨s.sp.val, by omega⟩, hstack⟩
  | _ => exact .inl (sameBut_writes_of_exec ht .stack (by simp [writes]))

end completed

/-! The invariant (R17, R20, R25, R63, R122). -/

/-- Without a recorded fault the invariant is the three bounds. -/
theorem State.Inv.of_no_fault {s : State} (hmem : s.mem.wf = true) (hpc : s.pc.toNat ≤ 0x10FE)
    (hstack : ∀ k : Fin 16, s.stack[k.val].toNat ≤ 0x1000) (hfault : s.fault = none) : s.Inv where
  memWf := hmem
  pcBound := hpc
  stackBound := hstack
  faultNotWaiting h := absurd hfault h
  faultFits _ hr := nomatch hr.symm.trans hfault

/-- What a record says of the core is read from `pc`, the stack depth and `I` alone. -/
theorem FaultRecord.fits_congr {s t : State} {r : FaultRecord} (hpc : t.pc = s.pc) (hsp : t.sp = s.sp) (hI : t.I = s.I) :
    r.fits t ↔ r.fits s := by
  obtain ⟨kind, addr, word⟩ := r
  cases word <;> cases kind <;> simp only [FaultRecord.fits, hpc, hsp, faultsWith_congr hsp hI]

/-- A change of elements the invariant does not bound keeps it, if memory stays canonical and no wait starts. -/
theorem State.Inv.of_sameBut {s t : State} (h : s.Inv)
    (hframe : SameBut [.mem, .x, .DT, .ST, .key, .disp, .wait, .injected, .drawCount] s t) (hmem : t.mem.wf = true)
    (hwait : s.wait = none → t.wait = none) : t.Inv := by
  have hpc : t.pc = s.pc := hframe .pc (by simp)
  have hstack : t.stack = s.stack := hframe .stack (by simp)
  have hfault : t.fault = s.fault := hframe .fault (by simp)
  exact {
    memWf := hmem
    pcBound := hpc ▸ h.pcBound
    stackBound := fun k => by simpa only [hstack] using h.stackBound k
    faultNotWaiting := fun hne => hwait (h.faultNotWaiting (hfault ▸ hne))
    faultFits := fun r hr =>
      (FaultRecord.fits_congr hpc (hframe .sp (by simp)) (hframe .I (by simp))).2 (h.faultFits r (hfault ▸ hr)) }

/-- A record that fits may be set in a core that waits for no key. -/
theorem State.Inv.setFault {s : State} (h : s.Inv) (hwait : s.wait = none) {r : FaultRecord} (hr : r.fits s) :
    (s.setFault (some r)).Inv where
  memWf := h.memWf
  pcBound := h.pcBound
  stackBound := h.stackBound
  faultNotWaiting _ := hwait
  faultFits r' hr' := by
    obtain rfl := Option.some.inj hr'
    exact (FaultRecord.fits_congr rfl rfl rfl).2 hr

/-- A `pc` in the range of a fetch, or just past it, advances without wrapping (R39). -/
theorem toNat_add_two {v : Word} (h : v.toNat ≤ 0x1000) : (v + 2).toNat = v.toNat + 2 := by
  have h2 : (2 : Word).toNat = 2 := rfl
  rw [BitVec.toNat_add, h2]
  omega

/-- The advance of a fetch in range keeps the invariant of a core with no fault. -/
theorem State.Inv.advance {s : State} (h : s.Inv) (hfault : s.fault = none) (hpc : s.pc.toNat ≤ 0xFFE) :
    (s.setPc (s.pc + 2)).Inv := by
  refine .of_no_fault h.memWf ?_ h.stackBound hfault
  rw [State.setPc_pc, toNat_add_two (by omega)]
  omega

/-- The cause of a Step's fault after its fetch is the one the record names. -/
theorem StepCause.fits {s : State} {w : Word} {k : FaultKind} (hpc : s.pc.toNat ≤ 0xFFE) (h : StepCause s w k) :
    (FaultRecord.mk k s.pc (some w)).fits (s.setPc (s.pc + 2)) := by
  have hadv : (s.pc + 2).toNat = s.pc.toNat + 2 := toNat_add_two (by omega)
  rcases h with ⟨rfl, hd⟩ | ⟨i, hd, hk⟩
  · exact ⟨hpc, hadv, hd⟩
  · refine ⟨hpc, hadv, ?_⟩
    cases i with
    | ret =>
      obtain ⟨rfl, hsp⟩ := hk
      exact ⟨hd, hsp⟩
    | call nnn =>
      obtain ⟨rfl, hsp⟩ := hk
      exact ⟨⟨nnn, hd⟩, hsp⟩
    | drw | ldB | storeRegs | loadRegs =>
      obtain ⟨rfl, hout⟩ := hk
      exact ⟨_, hd, rfl, hout⟩
    | _ => exact hk.elim

/-- A completed instruction of a core with no fault keeps the invariant. -/
theorem State.Inv.of_completed {i : Instr} {s t : State} (h : s.Inv) (hpc : s.pc.toNat ≤ 0x1000)
    (hno : ∀ k, ¬ faultsWith s i k) (ht : exec i s = .next t) (hfault : t.fault = none) : t.Inv := by
  refine .of_no_fault (wf_mem_of_completed hno ht h.memWf) ?_ (fun k => ?_) hfault
  · rcases pc_of_completed hno ht with heq | heq | ⟨k, heq⟩ | hle
    · rw [heq]
      omega
    · rw [heq, toNat_add_two hpc]
      omega
    · rw [heq]
      exact (h.stackBound k).trans (by decide)
    · exact hle
  · rcases stack_of_completed hno ht with heq | ⟨j, heq⟩
    · simpa only [heq] using h.stackBound k
    · simp only [heq, Vector.getElem_set]
      split
      · exact hpc
      · exact h.stackBound k

/-- Every Step keeps the invariant. -/
theorem step_inv {s t : State} (h : s.Inv) (ht : step s = .next t) : t.Inv := by
  by_cases hrun : s.running
  · rcases step_cases_of_running hrun with ⟨u, w, i, hw, -, hno, hu, hs, hnone⟩ | ⟨hfetch, hs⟩ | ⟨w, k, hw, hcause, hs⟩ <;>
      obtain rfl := Host.Outcome.next.inj (hs.symm.trans ht)
    · have hpc := State.pc_le_of_fetched hw
      refine (h.advance hrun.1 hpc).of_completed ?_ hno hu hnone
      rw [State.setPc_pc, toNat_add_two (by omega)]
      omega
    · exact h.setFault hrun.2 ⟨rfl, rfl, State.fetchWord_eq_none_iff.1 hfetch⟩
    · have hpc := State.pc_le_of_fetched hw
      exact (h.advance hrun.1 hpc).setFault hrun.2 (hcause.fits hpc)
  · exact eq_of_step_of_not_running hrun ht ▸ h

/-- Settles O13: a Step keeps the bounds when its instruction completes, and leaves a record that fits when it faults. -/
theorem invariantKeptByEveryStep : Obligations.InvariantKeptByEveryStep := by
  unfold Obligations.InvariantKeptByEveryStep
  exact fun _ _ => step_inv

/-! The invariant over every host transaction (R126, R136). -/

/-- The state after reset meets the invariant: its memory is the image of 80 bytes, and its stack holds zeros. -/
theorem inv_resetWith (font : Config.FontImage) : (State.resetWith font).Inv := by
  have hpc : (State.resetWith font).pc.toNat = 0x200 := rfl
  refine .of_no_fault ?_ (by omega) (fun k => ?_) rfl
  · exact Memory.wfFrom_image font.toList (by rw [Vector.length_toList]; decide)
  · simp [State.resetWith]

/-- Settles O12: the default image is one of the font images. -/
theorem invariantHoldsAtReset : Obligations.InvariantHoldsAtReset := by
  unfold Obligations.InvariantHoldsAtReset
  exact ⟨inv_resetWith, inv_resetWith Config.defaultFont⟩

/-- Reset gives every element but the random source its value after reset (R141). -/
theorem sameBut_resetWith_hostReset (font : Config.FontImage) (s : State) :
    SameBut [.injected, .drawCount] (State.resetWith font) (s.hostReset font) := by
  intro e he
  cases e with
  | injected | drawCount => simp at he
  | mem | x => exact fun _ => rfl
  | _ => rfl

/-- An image that fits is written at PROG_BASE (R145). -/
theorem State.load_of_fits (s : State) {bs : List Byte} (h : bs.length ≤ maxImage) :
    s.load (.bytes bs) = (.ok, s.writeBytes Config.progBase bs) := by
  rw [State.load, if_neg (by omega)]

/-- An image that does not fit is refused (R145). -/
theorem State.load_of_too_large (s : State) {bs : List Byte} (h : maxImage < bs.length) :
    s.load (.bytes bs) = (.imageTooLarge, s) := by
  rw [State.load, if_pos h]

/-- An image that fits ends inside memory. -/
theorem checkRange_of_fits {bs : List Byte} (h : bs.length ≤ maxImage) : checkRange Config.progBase bs.length = true := by
  rw [checkRange_iff]
  simp only [maxImage, Config.memSize, Config.progBase] at h ⊢
  omega

theorem wf_mem_load {s : State} (h : s.mem.wf = true) (image : Image) : (s.load image).2.mem.wf = true := by
  cases image with
  | unavailable => exact h
  | bytes bs =>
    by_cases hfit : bs.length ≤ maxImage
    · rw [State.load_of_fits s hfit]
      exact State.wf_writeBytes h (checkRange_of_fits hfit)
    · rw [State.load_of_too_large s (by omega)]
      exact h

/-- A KeyPress on a core that does not wait is discarded (R115). -/
theorem State.keyPress_of_not_waiting {s : State} (hwait : s.wait = none) (k : Fin 16) : s.keyPress k = s := by
  rw [State.keyPress, hwait]

/-- KeyPress writes at most the waiting register and the wait (R115). -/
theorem sameBut_keyPress (s : State) (k : Fin 16) : SameBut [.x, .wait] s (s.keyPress k) := by
  cases hwait : s.wait with
  | some x => exact sameBut_keyPress_of_waiting hwait k
  | none =>
    rw [State.keyPress_of_not_waiting hwait]
    exact SameBut.refl _ s

/-- KeyPress keeps memory as it is, not only as it reads. -/
theorem State.keyPress_mem (s : State) (k : Fin 16) : (s.keyPress k).mem = s.mem := by
  rw [State.keyPress]
  split <;> rfl

/-- Every host transaction keeps the invariant. -/
theorem transact_inv (font : Config.FontImage) (t : Transaction) {s : State} (h : s.Inv) : (transact font t s).2.Inv := by
  cases t with
  | reset =>
    have hreset := inv_resetWith font
    exact hreset.of_sameBut ((sameBut_resetWith_hostReset font s).mono (by simp)) hreset.memWf id
  | load image =>
    refine h.of_sameBut ((sameBut_load s image).mono (by simp)) (wf_mem_load h.memWf image) fun hw => ?_
    exact (sameBut_load s image .wait (by simp)).trans hw
  | step =>
    rcases s.hostStep_state with hstep | hsame
    · exact step_inv h hstep
    · rwa [transact, hsame]
  | tick => exact h.of_sameBut ((sameBut_tick s).mono (by simp)) h.memWf id
  | setKey k p => exact h.of_sameBut ((sameBut_setKey s k p).mono (by simp)) h.memWf id
  | keyPress k =>
    refine h.of_sameBut ((sameBut_keyPress s k).mono (by simp)) ?_ fun _ => s.keyPress_wait k
    exact s.keyPress_mem k ▸ h.memWf
  | readDisplay | readStatus => exact h

/-- What holds of a state and is kept by every transaction of a schedule holds after the schedule. -/
theorem runSchedule_induction {P : State → Prop} {font : Config.FontImage} {ts : List Transaction}
    (hkeep : ∀ t ∈ ts, ∀ s, P s → P (transact font t s).2) {s : State} (h : P s) : P (runSchedule font ts s) := by
  induction ts generalizing s with
  | nil => exact h
  | cons t ts ih =>
    obtain ⟨ht, hts⟩ := List.forall_mem_cons.1 hkeep
    exact ih hts (ht s h)

/-- Settles O14: the invariant holds at reset and is kept by every transaction, and so after every schedule. -/
theorem invariantHoldsInEveryReachableState : Obligations.InvariantHoldsInEveryReachableState := by
  unfold Obligations.InvariantHoldsInEveryReachableState
  refine ⟨inv_resetWith, fun font t _ h => transact_inv font t h, ?_⟩
  rintro font s ⟨ts, rfl⟩
  exact runSchedule_induction (fun t _ _ => transact_inv font t) (inv_resetWith font)

/-! The recorded fault over every schedule (R124). -/

theorem step_of_recorded {s : State} {r : FaultRecord} (h : s.fault = some r) : step s = .fault (.recorded r) := by
  rw [step, stepCore, h]

/-- While a fault is recorded and no wait stands beside it, a transaction other than Reset writes only what the host itself
writes: a Step answers the record, and a KeyPress is discarded. -/
theorem transact_sameBut_of_recorded (font : Config.FontImage) {t : Transaction} {s : State} {r : FaultRecord}
    (hfault : s.fault = some r) (hwait : s.wait = none) (ht : t ≠ .reset) :
    SameBut [.DT, .ST, .key, .mem] s (transact font t s).2 := by
  cases t with
  | reset => exact absurd rfl ht
  | load image => exact (sameBut_load s image).mono (by simp)
  | step =>
    rw [transact, State.hostStep_of_recorded (step_of_recorded hfault)]
    exact SameBut.refl _ s
  | tick => exact (sameBut_tick s).mono (by simp)
  | setKey k p => exact (sameBut_setKey s k p).mono (by simp)
  | keyPress k =>
    rw [transact, State.keyPress_of_not_waiting hwait]
    exact SameBut.refl _ s
  | readDisplay | readStatus => exact SameBut.refl _ s

/-- A schedule without Reset keeps everything but the timers, the keypad and memory of a core with a recorded fault. -/
theorem runSchedule_sameBut_of_recorded (font : Config.FontImage) {ts : List Transaction} {s : State} {r : FaultRecord}
    (hfault : s.fault = some r) (hwait : s.wait = none) (hts : ∀ t ∈ ts, t ≠ .reset) :
    SameBut [.DT, .ST, .key, .mem] s (runSchedule font ts s) := by
  refine runSchedule_induction (fun t ht u hu => ?_) (SameBut.refl _ s)
  have hufault : u.fault = s.fault := hu .fault (by simp)
  have huwait : u.wait = s.wait := hu .wait (by simp)
  exact hu.trans (transact_sameBut_of_recorded font (hufault.trans hfault) (huwait.trans hwait) (hts t ht))

/-- Settles O52: the frame of the schedule keeps the record, which every Step answers; the state after reset holds none. -/
theorem recordedFaultStaysUntilReset : Obligations.RecordedFaultStaysUntilReset := by
  unfold Obligations.RecordedFaultStaysUntilReset
  intro font ts s r hfault hwait hts
  have hframe := runSchedule_sameBut_of_recorded font hfault hwait hts
  have hkept : (runSchedule font ts s).fault = some r := (hframe .fault (by simp)).trans hfault
  exact ⟨hkept, hframe, step_of_recorded hkept, rfl⟩

end Sys2Proof.Machine
end

section
/-! PROOFS, family other: the read/write matrix of 10_state.md. Register by register, and read by read, what an instruction keeps
and what it depends on; who writes `I` and the display. -/

namespace Sys2Proof.Machine

/-! The registers an instruction keeps (R14, R15, R31). -/

/-- A result and a flag write their register and VF alone. -/
theorem regsSameBut_setResultAndFlag (s : State) (x : Reg) (v : Byte) (f : Bool) :
    RegsSameBut [x, VF] s (s.setResultAndFlag x v f) := by
  intro q hq
  simp only [List.mem_cons, List.not_mem_nil, or_false, not_or] at hq
  rw [State.reg_setResultAndFlag, if_neg hq.2, if_neg hq.1]

/-- A sprite's latch goes through VF alone. -/
theorem execDrw_regsSameBut {x y : Reg} {n : Fin 16} {s t : State} (ht : execDrw x y n s = .next t) : RegsSameBut [VF] s t := by
  intro q hq
  have hne : q ≠ VF := List.ne_of_not_mem_cons hq
  rw [execDrw] at ht
  split at ht <;> obtain rfl := Host.Outcome.next.inj ht
  · rw [State.reg_setReg_other _ _ hne, State.reg_setDisp, State.reg_setReg_other _ _ hne]
  · rfl

/-- A block load keeps the registers above X. -/
theorem execLoadRegs_regsSameBut {x : Reg} {s t : State} (ht : execLoadRegs x s = .next t) :
    RegsSameBut (regWrites (.loadRegs x)) s t := by
  intro q hq
  have habove : x.val < q.val := by simpa [regWrites] using hq
  rw [execLoadRegs] at ht
  split at ht <;> obtain rfl := Host.Outcome.next.inj ht
  · rw [State.reg_setRegsFrom, State.length_readBytes, blockSize, if_neg (by omega)]
  · rfl

/-- Every register but its destinations keeps its value through an instruction. -/
theorem exec_regsSameBut {i : Instr} {s t : State} (ht : exec i s = .next t) : RegsSameBut (regWrites i) s t := by
  cases i with
  | ldImm | addImm | ldReg | orReg | andReg | xorReg | ldVxDT =>
    obtain rfl := Host.Outcome.next.inj ht
    exact regsSameBut_setReg s _ _
  | rnd =>
    obtain rfl := Host.Outcome.next.inj ht
    exact regsSameBut_setReg s.takeDraw _ _
  | addReg | subReg | shr | subn | shl =>
    obtain rfl := Host.Outcome.next.inj ht
    exact regsSameBut_setResultAndFlag s _ _ _
  | drw => exact execDrw_regsSameBut ht
  | loadRegs => exact execLoadRegs_regsSameBut ht
  | _ => exact fun r _ => sameBut_writes_of_exec ht .x (by simp [writes]) r

/-- Settles O15: the frame of every instruction by element, and by register. -/
theorem instructionWritesOnlyItsRowOfTheMatrix : Obligations.InstructionWritesOnlyItsRowOfTheMatrix := by
  unfold Obligations.InstructionWritesOnlyItsRowOfTheMatrix
  intro i s
  obtain ⟨t, ht, hframe⟩ := exec_sameBut_writes i s
  exact ⟨t, ht, hframe, exec_regsSameBut ht⟩

/-! Noninterference, element by element (R31). -/

/-- The elements outside `es`: two states that agree on `es` agree on all but these. -/
def Elem.outside (es : List Elem) : List Elem :=
  [.mem, .x, .I, .pc, .stack, .sp, .DT, .ST, .key, .disp, .wait, .fault, .injected, .drawCount].filter (· ∉ es)

theorem Elem.mem_outside_iff {e : Elem} {es : List Elem} : e ∈ Elem.outside es ↔ e ∉ es := by
  cases e <;> simp [Elem.outside]

/-- Settles O16: the noninterference of `exec_agreeBut`, with every element outside the row free to differ. -/
theorem outcomeDependsOnlyOnTheMatrixRow : Obligations.OutcomeDependsOnlyOnTheMatrixRow := by
  unfold Obligations.OutcomeDependsOnlyOnTheMatrixRow
  intro i s s' hwf hwf' hagree
  have hsame : SameBut (Elem.outside (reads i ++ writes i)) s s' := fun e he =>
    hagree e (by rwa [Elem.mem_outside_iff, not_not] at he)
  obtain ⟨t, t', ht, ht', htt'⟩ :=
    exec_agreeBut hsame i (.inr ⟨hwf, hwf'⟩) fun e he => hagree e (List.mem_append_left _ he)
  exact ⟨t, t', ht, ht', fun e he => htt' e fun hout => Elem.mem_outside_iff.1 hout (List.mem_append_right _ he)⟩

/-! The address register (R19). -/

theorem I_mem_writes_iff {i : Instr} : .I ∈ writes i ↔ (∃ nnn, i = .ldI nnn) ∨ (∃ x, i = .addI x) ∨ ∃ x, i = .ldF x := by
  cases i <;> simp [writes]

/-- An instruction that changes I is ANNN, FX1E or FX29. -/
theorem exec_changes_I {i : Instr} {s t : State} (ht : exec i s = .next t) (hne : t.I ≠ s.I) :
    (∃ nnn, i = .ldI nnn) ∨ (∃ x, i = .addI x) ∨ ∃ x, i = .ldF x :=
  I_mem_writes_iff.1 (by_contra fun hkept => hne (sameBut_writes_of_exec ht .I hkept))

/-- The glyph address of a register value, as a number (R96). -/
theorem toNat_glyphAddr (v : Byte) : (glyphAddr v).toNat = 5 * (v.toNat % 16) := by
  simp only [glyphAddr, lowNibble, Config.fontBase, Config.fontStride, BitVec.toNat_ofNat]
  omega

/-- Only FX1E takes I past 0xFFF: ANNN's address has 12 bits and a glyph's is at most 75. -/
theorem exec_takes_I_past {i : Instr} {s t : State} (ht : exec i s = .next t) (hs : s.I.toNat ≤ 0xFFF)
    (hpast : 0xFFF < t.I.toNat) : ∃ x, i = .addI x := by
  have hne : t.I ≠ s.I := fun h => by rw [h] at hpast; omega
  rcases exec_changes_I ht hne with ⟨nnn, rfl⟩ | hadd | ⟨x, rfl⟩
  · obtain rfl := Host.Outcome.next.inj ht
    rw [State.setI_I] at hpast
    exact absurd (toNat_addrOf_le nnn) (by omega)
  · exact hadd
  · obtain rfl := Host.Outcome.next.inj ht
    rw [State.setI_I, toNat_glyphAddr] at hpast
    omega

/-- An instruction whose condition holds answers the state with its record, nothing else changed. -/
theorem exec_records {i : Instr} {s : State} {k : FaultKind} (hk : faultsWith s i k) :
    ∃ t, exec i s = .next t ∧ t.fault = some ⟨k, s.pc - 2, some (encode i)⟩ ∧ SameBut [.fault] s t :=
  ⟨_, exec_of_faultsWith hk, rfl, sameBut_setFault s _⟩

/-- With I above 0xFFF every access is outside memory (R39). -/
theorem accessOutside_of_I_past {s : State} {n : Nat} (hI : 0xFFF < s.I.toNat) (hn : 0 < n) : accessOutside s n :=
  ⟨hn, by omega⟩

/-- Settles O17: the matrix says who writes I, and an access with I above 0xFFF is outside memory. -/
theorem addressRegisterWrittenOnlyByItsThreeInstructions : Obligations.AddressRegisterWrittenOnlyByItsThreeInstructions := by
  unfold Obligations.AddressRegisterWrittenOnlyByItsThreeInstructions
  refine ⟨fun _ _ _ => exec_changes_I, fun _ _ _ => exec_takes_I_past, fun i s hI => ?_⟩
  rintro (⟨x, rfl | rfl | rfl⟩ | ⟨x, y, n, rfl, hn⟩)
  · exact exec_records ⟨rfl, accessOutside_of_I_past hI (by decide)⟩
  · exact exec_records ⟨rfl, accessOutside_of_I_past hI (by omega)⟩
  · exact exec_records ⟨rfl, accessOutside_of_I_past hI (by omega)⟩
  · exact exec_records ⟨rfl, accessOutside_of_I_past hI (Nat.pos_of_ne_zero fun h0 => hn (Fin.ext h0))⟩

/-! The display (R24). -/

theorem disp_mem_writes_iff {i : Instr} : .disp ∈ writes i ↔ i = .cls ∨ ∃ x y n, i = .drw x y n := by
  cases i <;> simp [writes]

theorem disp_mem_reads_iff {i : Instr} : .disp ∈ reads i ↔ ∃ x y n, i = .drw x y n := by cases i <;> simp [reads]

/-- The host's own transactions write only memory, the timers, the keypad and, at the end of a wait, its register. -/
theorem transact_sameBut_of_host (font : Config.FontImage) {t : Transaction} (s : State) (hreset : t ≠ .reset)
    (hstep : t ≠ .step) : SameBut [.mem, .DT, .ST, .key, .x, .wait] s (transact font t s).2 := by
  cases t with
  | reset => exact absurd rfl hreset
  | step => exact absurd rfl hstep
  | load image => exact (sameBut_load s image).mono (by simp)
  | tick => exact (sameBut_tick s).mono (by simp)
  | setKey k p => exact (sameBut_setKey s k p).mono (by simp)
  | keyPress k => exact (sameBut_keyPress s k).mono (by simp)
  | readDisplay | readStatus => exact SameBut.refl _ s

/-- Settles O20: the matrix says who writes and who reads the display; no host transaction but Step and Reset writes it. -/
theorem displayWrittenOnlyByClearAndDraw : Obligations.DisplayWrittenOnlyByClearAndDraw := by
  unfold Obligations.DisplayWrittenOnlyByClearAndDraw
  refine ⟨fun i s t ht hne => ?_, fun i s d hi => ?_, fun font t s hreset hstep => ?_, fun _ _ => rfl⟩
  · exact disp_mem_writes_iff.1 (by_contra fun hkept => hne (sameBut_writes_of_exec ht .disp hkept))
  · refine exec_agreeBut_of_unread (sameBut_setDisp s d) rfl fun hread => ?_
    obtain ⟨x, y, n, rfl⟩ := disp_mem_reads_iff.1 hread
    exact hi x y n rfl
  · exact transact_sameBut_of_host font s hreset hstep .disp (by simp)

end Sys2Proof.Machine
end

section
/-! PROOFS, family other: control flow, the key skips and the arithmetic family. 2NNN and its return, the skips on
registers and keys, BNNN, 8XY1 to 8XYE, and CXNN. -/

namespace Sys2Proof.Machine

/-! 2NNN (R70, R71). -/

/-- Settles O24: with room the call pushes and jumps; at capacity it is a fault entry. -/
theorem callPushesTheAdvancedPcOrOverflows : Obligations.CallPushesTheAdvancedPcOrOverflows := by
  unfold Obligations.CallPushesTheAdvancedPcOrOverflows
  refine ⟨decodesA_of_encode (by decide) fun _ => rfl, fun nnn s => ⟨fun k hk => ?_, fun hfull => exec_records ⟨rfl, hfull⟩⟩⟩
  obtain ⟨t, ht, -, hstack, hsp, hpc, hframe⟩ := exec_call_of_room (s := s) nnn (by omega)
  refine ⟨t, ht, ?_, fun j hj => ?_, hk ▸ hsp, hpc ▸ toNat_addrOf nnn, hframe⟩
  · simp only [hstack, hk, Vector.getElem_set_self]
  · have hne : k.val ≠ j.val := fun h => hj (Fin.ext h.symm)
    simp only [hstack, hk, Vector.getElem_set_ne _ _ hne]

/-- Settles O25: the call's Step pushes the advanced `pc`, and the return's Step pops it from the same entry. -/
theorem callThenReturnIsARoundTrip : Obligations.CallThenReturnIsARoundTrip := by
  unfold Obligations.CallThenReturnIsARoundTrip
  intro s w nnn hrun hroom hfetch hd hnnn hfirst hsecond
  obtain ⟨t, ht, hmem, hstack, hsp, hpc, hframe⟩ := exec_call_of_room (s := s.setPc (s.pc + 2)) nnn hroom
  rw [State.setPc_mem] at hmem
  rw [State.setPc_sp] at hsp
  have hframe' : SameBut [.stack, .sp, .pc] s t := ((sameBut_setPc s _).mono (by simp)).trans hframe
  have hrun' : t.running := ⟨(hframe' .fault (by simp)).trans hrun.1, (hframe' .wait (by simp)).trans hrun.2⟩
  have hfetch' : t.fetchWord = some 0x00EE := by
    rw [State.fetchWord_eq, hpc, toNat_addrOf, if_pos hnnn, hmem, hfirst, hsecond]
    rfl
  obtain ⟨u, hu, hupc, husp, huframe⟩ :=
    exec_ret_of_depth (s := t.setPc (t.pc + 2)) ⟨s.sp.val, hroom⟩ hsp
  have hustack : u.stack = t.stack := huframe .stack (by simp)
  have hsame : SameBut [.stack, .sp, .pc] s u :=
    hframe'.trans (((sameBut_setPc t _).mono (by simp)).trans (huframe.mono (by simp)))
  have hdepth : u.sp = s.sp := Fin.ext husp
  refine ⟨t, u, (step_of_decoded hrun hfetch hd).trans ht,
    (step_of_decoded hrun' hfetch' (decodeWord_ok_iff_eq_encode.2 rfl)).trans hu, ?_, hdepth, fun e he => ?_, fun j hj => ?_⟩
  · simp only [hupc, State.setPc_stack, hstack, State.setPc_sp, State.setPc_pc, Vector.getElem_set_self]
  · by_cases hesp : e = .sp
    · exact hesp ▸ hdepth
    · exact hsame e (by simp_all)
  · simp only [hustack, hstack, State.setPc_stack, State.setPc_sp, Vector.getElem_set_ne _ _ hj.symm]

/-! 5XY0 and 9XY0 (R74, R75). -/

/-- Settles O27: shape XY decodes to each, and each is a `skipIf`, the second with the negated condition. -/
theorem skipOnRegistersAddsTwoToThePc : Obligations.SkipOnRegistersAddsTwoToThePc := by
  unfold Obligations.SkipOnRegistersAddsTwoToThePc
  refine ⟨decodesXY_of_encode (by decide) (by decide) fun _ _ => rfl,
    decodesXY_of_encode (by decide) (by decide) fun _ _ => rfl,
    fun x y s => ⟨⟨_, rfl, ?_, sameBut_skipIf s _, ?_⟩, ⟨_, rfl, ?_, sameBut_skipIf s _, ?_⟩⟩⟩
  · simp only [State.skipIf_pc, decide_eq_true_eq]
  · rintro rfl
    simp only [State.skipIf_pc, decide_true, if_true]
  · simp only [State.skipIf_pc, decide_eq_true_eq, ite_not]
  · rintro rfl
    simp [State.skipIf_pc]

/-! EX9E and EXA1 (R111, R112). -/

/-- Settles O46: shape XF decodes to each, and each is a `skipIf` on the key of the low nibble, the second with the negation. -/
theorem keySkipsTestTheKeyOfTheLowNibble : Obligations.KeySkipsTestTheKeyOfTheLowNibble := by
  unfold Obligations.KeySkipsTestTheKeyOfTheLowNibble
  refine ⟨decodesXF_of_encode (by decide) (by decide) fun _ => rfl, decodesXF_of_encode (by decide) (by decide) fun _ => rfl,
    fun x k s hk => ?_⟩
  obtain rfl : lowNibble (s.reg x) = k := Fin.ext hk.symm
  refine ⟨⟨_, rfl, State.skipIf_pc s _, sameBut_skipIf s _⟩, ⟨_, rfl, ?_, sameBut_skipIf s _⟩⟩
  rw [State.skipIf_pc, State.keyOf]
  cases s.key[(lowNibble (s.reg x)).val] <;> rfl

/-! BNNN (R76). -/

/-- Settles O28: shape A decodes to it, and its meaning is one `setPc` to a sum of 16 bits, from 0xFFF up out of a fetch's range. -/
theorem jumpPlusV0IsTheExactSum : Obligations.JumpPlusV0IsTheExactSum := by
  unfold Obligations.JumpPlusV0IsTheExactSum
  exact ⟨decodesA_of_encode (by decide) fun _ => rfl,
    fun nnn s => ⟨_, rfl, toNat_addrOf_add_zext16 nnn _, toNat_addrOf_add_zext16_le nnn _, sameBut_setPc s _,
      fun hrun hpast => nextFetchFaults_of_pc_outside (State.running_setPc hrun _) hpast⟩⟩

/-! 8XY1 to 8XY3 (R83 to R85). -/

/-- Settles O32: shape XY decodes to each, and each is one register write of a bitwise result. -/
theorem logicInstructionsAreBitwiseAndLeaveVF : Obligations.LogicInstructionsAreBitwiseAndLeaveVF := by
  unfold Obligations.LogicInstructionsAreBitwiseAndLeaveVF
  refine ⟨decodesXY_of_encode (by decide) (by decide) fun _ _ => rfl,
    decodesXY_of_encode (by decide) (by decide) fun _ _ => rfl,
    decodesXY_of_encode (by decide) (by decide) fun _ _ => rfl, fun x y s =>
    ⟨⟨_, rfl, fun k _ => ?_, regsSameBut_setReg s x _, sameBut_setReg s x _⟩,
      ⟨_, rfl, fun k _ => ?_, regsSameBut_setReg s x _, sameBut_setReg s x _⟩,
      ⟨_, rfl, fun k _ => ?_, regsSameBut_setReg s x _, sameBut_setReg s x _⟩⟩⟩
  · rw [State.reg_setReg_same, BitVec.getLsbD_or]
  · rw [State.reg_setReg_same, BitVec.getLsbD_and]
  · rw [State.reg_setReg_same, BitVec.getLsbD_xor]

/-! 8XY4 to 8XYE: a result and then a flag (R81, R86 to R90, R93). -/

/-- The result stands in Vx unless that is VF, where the flag overwrites it (R81(b)). -/
theorem State.reg_setResultAndFlag_result (s : State) {x : Reg} (hx : x ≠ VF) (v : Byte) (f : Bool) :
    (s.setResultAndFlag x v f).reg x = v := by
  rw [State.reg_setResultAndFlag, if_neg hx, if_pos rfl]

theorem State.reg_setResultAndFlag_VF (s : State) (x : Reg) (v : Byte) (f : Bool) :
    (s.setResultAndFlag x v f).reg VF = flagByte f := by
  rw [State.reg_setResultAndFlag, if_pos rfl]

theorem flagByte_decide (p : Prop) [Decidable p] : flagByte (decide p) = if p then 1 else 0 := by
  by_cases h : p <;> simp [flagByte, h]

/-- A bit as a flag is that bit of the number. -/
theorem toNat_flagByte_getLsbD (v : Byte) (k : Nat) : (flagByte (v.getLsbD k)).toNat = v.toNat / 2 ^ k % 2 := by
  rw [BitVec.getLsbD, Nat.testBit_eq_decide_div_mod_eq, flagByte_decide]
  rcases Nat.mod_two_eq_zero_or_one (v.toNat / 2 ^ k) with h | h <;> simp [h]

/-- A difference of two bytes is the integers' difference modulo 256. -/
theorem toInt_sub_byte (a b : Byte) : ((a - b).toNat : Int) = ((a.toNat : Int) - (b.toNat : Int)) % 256 := by
  have ha := a.isLt
  have hb := b.isLt
  rw [BitVec.toNat_sub]
  omega

/-- Settles O33: shape XY decodes to it, and its meaning is a result and a flag: the sum of two bytes and its carry. -/
theorem addWritesSumThenCarry : Obligations.AddWritesSumThenCarry := by
  unfold Obligations.AddWritesSumThenCarry
  refine ⟨decodesXY_of_encode (by decide) (by decide) fun _ _ => rfl, fun x y s =>
    ⟨_, rfl, fun hx => ?_, ?_, regsSameBut_setResultAndFlag s x _ _, sameBut_setResultAndFlag s x _ _⟩⟩
  · rw [State.reg_setResultAndFlag_result s hx, BitVec.toNat_add]
  · exact (State.reg_setResultAndFlag_VF s x _ _).trans (flagByte_decide _)

/-- Settles O34: shape XY decodes to each, and each is a result and a flag: a difference of two bytes and its NOT borrow. -/
theorem subtractsWriteDifferenceThenNoBorrow : Obligations.SubtractsWriteDifferenceThenNoBorrow := by
  unfold Obligations.SubtractsWriteDifferenceThenNoBorrow
  refine ⟨decodesXY_of_encode (by decide) (by decide) fun _ _ => rfl,
    decodesXY_of_encode (by decide) (by decide) fun _ _ => rfl, fun x y s =>
    ⟨⟨_, rfl, fun hx => ?_, ?_, regsSameBut_setResultAndFlag s x _ _, sameBut_setResultAndFlag s x _ _⟩,
      ⟨_, rfl, fun hx => ?_, ?_, regsSameBut_setResultAndFlag s x _ _, sameBut_setResultAndFlag s x _ _⟩⟩⟩
  · rw [State.reg_setResultAndFlag_result s hx, toInt_sub_byte]
  · exact (State.reg_setResultAndFlag_VF s x _ _).trans (flagByte_decide _)
  · rw [State.reg_setResultAndFlag_result s hx, toInt_sub_byte]
  · exact (State.reg_setResultAndFlag_VF s x _ _).trans (flagByte_decide _)

/-- Settles O35: shape XY decodes to each, and each is a result and a flag: Vx shifted by one and the bit shifted out. -/
theorem shiftsMoveVxByOneAndKeepTheBitOut : Obligations.ShiftsMoveVxByOneAndKeepTheBitOut := by
  unfold Obligations.ShiftsMoveVxByOneAndKeepTheBitOut
  refine ⟨decodesXY_of_encode (by decide) (by decide) fun _ _ => rfl,
    decodesXY_of_encode (by decide) (by decide) fun _ _ => rfl, fun x y s =>
    ⟨⟨_, rfl, fun hx => ?_, ?_, regsSameBut_setResultAndFlag s x _ _, sameBut_setResultAndFlag s x _ _⟩,
      ⟨_, rfl, fun hx => ?_, ?_, regsSameBut_setResultAndFlag s x _ _, sameBut_setResultAndFlag s x _ _⟩⟩⟩
  · rw [State.reg_setResultAndFlag_result s hx, BitVec.toNat_ushiftRight, Nat.shiftRight_eq_div_pow, pow_one]
  · rw [State.reg_setResultAndFlag_VF, bitOutRight, toNat_flagByte_getLsbD, pow_zero, Nat.div_one]
  · rw [State.reg_setResultAndFlag_result s hx, BitVec.toNat_shiftLeft, Nat.shiftLeft_eq, pow_one]
  · have hlt := (s.reg x).isLt
    rw [State.reg_setResultAndFlag_VF, bitOutLeft, toNat_flagByte_getLsbD]
    omega

/-! CXNN (R91). -/

/-- Settles O36: shape XK decodes to it, and its meaning takes one draw and writes it, masked, to one register. -/
theorem randomTakesOneDrawAndMasksIt : Obligations.RandomTakesOneDrawAndMasksIt := by
  unfold Obligations.RandomTakesOneDrawAndMasksIt
  refine ⟨decodesXK_of_encode (by decide) fun _ _ => rfl, fun x nn s => ?_⟩
  obtain ⟨t, ht, hframe⟩ := execRnd_sameBut x nn s
  obtain rfl := Host.Outcome.next.inj ht
  refine ⟨_, rfl, fun r rest hinj => ⟨?_, ?_⟩, fun hinj => ⟨?_, ?_⟩, rfl, ?_, exec_regsSameBut (i := .rnd x nn) rfl, hframe⟩
  · rw [State.reg_setReg_same, State.drawByte, hinj, List.headD_cons]
  · rw [State.setReg_injected, State.takeDraw_injected, hinj, List.tail_cons]
  · rw [State.reg_setReg_same, State.drawByte, hinj, List.headD_nil]
  · rw [State.setReg_injected, State.takeDraw_injected, hinj, List.tail_nil]
  · rintro rfl
    rw [State.reg_setReg_same]
    exact BitVec.and_zero

end Sys2Proof.Machine
end

section
/-! PROOFS, family other: index memory and the display. FX1E, FX29, the block instructions FX33, FX55 and FX65 with what a
fetch sees of their stores, and DXYN. -/

namespace Sys2Proof.Machine

/-! FX1E and FX29 (R95, R96). -/

/-- Settles O38: shape XF decodes to it, and its meaning is one write to `I` of a sum of 16-bit words. -/
theorem addToAddressRegisterWrapsWithoutFlag : Obligations.AddToAddressRegisterWrapsWithoutFlag := by
  unfold Obligations.AddToAddressRegisterWrapsWithoutFlag
  refine ⟨decodesXF_of_encode (by decide) (by decide) fun _ => rfl, fun x s => ⟨_, rfl, ?_, sameBut_setI s _⟩⟩
  rw [State.setI_I, BitVec.toNat_add, toNat_zext16]

/-- After reset memory is the font image at FONT_BASE, and 0 above it (R30). -/
theorem read_resetWith (font : Config.FontImage) (a : Nat) :
    (State.resetWith font).mem.read a = if a < 80 then font.toList.getD a 0 else 0 := by
  rw [State.resetWith, Memory.read_image, Vector.length_toList, Config.fontBase]
  simp only [Nat.zero_le, true_and, Nat.zero_add, Nat.sub_zero, unlistedByte]

/-- Settles O39: shape XF decodes to it, and its meaning is one write to `I` of an address inside the font image. -/
theorem fontAddressPointsAtTheGlyphBytes : Obligations.FontAddressPointsAtTheGlyphBytes := by
  unfold Obligations.FontAddressPointsAtTheGlyphBytes
  refine ⟨decodesXF_of_encode (by decide) (by decide) fun _ => rfl,
    fun x s => ⟨_, rfl, toNat_glyphAddr _, sameBut_setI s _, fun font j hj => ?_⟩⟩
  rw [State.setI_I, toNat_glyphAddr, read_resetWith, if_pos (by omega)]

/-! Block stores (R97, R99). -/

/-- A block write in range keeps every byte outside the block. -/
theorem memSameOutside_writeBytes {s : State} {a : Nat} {bs : List Byte} (hwf : s.mem.wf = true)
    (hr : checkRange a bs.length = true) : MemSameOutside a bs.length s (s.writeBytes a bs) := by
  intro c hc
  rw [State.read_writeBytes c hwf hr, if_neg (by omega)]

/-- A block write in range puts the block's bytes in order. -/
theorem read_writeBytes_block {s : State} {a k : Nat} {bs : List Byte} (hwf : s.mem.wf = true)
    (hr : checkRange a bs.length = true) (hk : k < bs.length) : (s.writeBytes a bs).mem.read (a + k) = bs.getD k 0 := by
  rw [State.read_writeBytes _ hwf hr, if_pos (by omega), Nat.add_sub_cancel_left]

/-- FX33 in range: the three decimal digits of Vx at `I`, and nothing else (R97). -/
theorem exec_ldB_of_range {s : State} (x : Reg) (hwf : s.mem.wf = true) (hI : s.I.toNat + 2 ≤ 0xFFF) :
    ∃ t, exec (.ldB x) s = .next t ∧ (t.mem.read s.I.toNat).toNat = (s.reg x).toNat / 100 ∧
      (t.mem.read (s.I.toNat + 1)).toNat = (s.reg x).toNat / 10 % 10 ∧
      (t.mem.read (s.I.toNat + 2)).toNat = (s.reg x).toNat % 10 ∧ MemSameOutside s.I.toNat 3 s t ∧ SameBut [.mem] s t := by
  have hr : checkRange s.base (bcdDigits (s.reg x)).length = true := by
    rw [checkRange_iff, length_bcdDigits, State.base]
    omega
  have hread := fun k => read_writeBytes_block (k := k) hwf hr
  have hv := (s.reg x).isLt
  refine ⟨s.writeBytes s.base (bcdDigits (s.reg x)), if_pos hr, ?_, ?_, ?_, memSameOutside_writeBytes hwf hr,
    sameBut_writeBytes s _ _⟩
  · rw [← Nat.add_zero s.I.toNat, ← State.base, hread 0 (by simp)]
    exact (BitVec.toNat_ofNat _ _).trans (by omega)
  · rw [← State.base, hread 1 (by simp)]
    exact (BitVec.toNat_ofNat _ _).trans (by omega)
  · rw [← State.base, hread 2 (by simp)]
    exact (BitVec.toNat_ofNat _ _).trans (by omega)

/-- Settles O40: shape XF decodes to it; in range it stores the digits, and otherwise it is a fault entry. -/
theorem bcdStoresThreeDigits : Obligations.BcdStoresThreeDigits := by
  unfold Obligations.BcdStoresThreeDigits
  refine ⟨decodesXF_of_encode (by decide) (by decide) fun _ => rfl, fun x s => ⟨fun hwf hI => ?_, fun hI => ?_⟩⟩
  · obtain ⟨t, ht, hhundreds, htens, hones, hmem, hframe⟩ := exec_ldB_of_range x hwf hI
    have hv := (s.reg x).isLt
    refine ⟨t, ht, ?_, ?_, ?_, ?_, hmem, hframe⟩ <;> omega
  · exact exec_records ⟨rfl, by decide, by omega⟩

/-- The block of V0 to Vx at `I` is in range when its last byte is (R39). -/
theorem checkRange_blockSize {s : State} {x : Reg} (hI : s.I.toNat + x.val ≤ 0xFFF) :
    checkRange s.base (blockSize x) = true := by
  rw [checkRange_iff, blockSize, State.base]
  omega

/-- FX55 in range: V0 to Vx at `I` upward, and nothing else (R99). -/
theorem exec_storeRegs_of_range {s : State} {x : Reg} (hwf : s.mem.wf = true) (hI : s.I.toNat + x.val ≤ 0xFFF) :
    ∃ t, exec (.storeRegs x) s = .next t ∧ (∀ k : Reg, k ≤ x → t.mem.read (s.I.toNat + k.val) = s.reg k) ∧
      MemSameOutside s.I.toNat (x.val + 1) s t ∧ SameBut [.mem] s t := by
  have hin : checkRange s.base (blockSize x) = true := checkRange_blockSize hI
  have hlen : (s.regBlock x).length = x.val + 1 := s.length_regBlock x
  have hr : checkRange s.base (s.regBlock x).length = true := hlen ▸ hin
  refine ⟨s.writeBytes s.base (s.regBlock x), if_pos hin, fun k hk => ?_,
    hlen ▸ memSameOutside_writeBytes hwf hr, sameBut_writeBytes s _ _⟩
  have hkx : k.val ≤ x.val := hk
  rw [← State.base, read_writeBytes_block hwf hr (by omega), State.getD_regBlock s hkx]

/-- Settles O41: shape XF decodes to it; in range it stores the block, and otherwise it is a fault entry. -/
theorem storeRegistersWritesTheBlockAtI : Obligations.StoreRegistersWritesTheBlockAtI := by
  unfold Obligations.StoreRegistersWritesTheBlockAtI
  exact ⟨decodesXF_of_encode (by decide) (by decide) fun _ => rfl, fun x s =>
    ⟨exec_storeRegs_of_range, fun hI => exec_records ⟨rfl, by omega, by omega⟩⟩⟩

/-! FX65 (R100). -/

/-- Settles O42: shape XF decodes to it; in range it loads the block register by register, and otherwise it is a fault entry. -/
theorem loadRegistersReadsTheBlockAtI : Obligations.LoadRegistersReadsTheBlockAtI := by
  unfold Obligations.LoadRegistersReadsTheBlockAtI
  refine ⟨decodesXF_of_encode (by decide) (by decide) fun _ => rfl, fun x s =>
    ⟨fun hI => ?_, fun hI => exec_records ⟨rfl, by omega, by omega⟩⟩⟩
  refine ⟨s.setRegsFrom 0 (s.readBytes s.base (blockSize x)), if_pos (checkRange_blockSize hI), fun k hk => ?_, fun k hk => ?_,
    sameBut_setRegsFrom s _ _⟩
  · have hkx : k.val < blockSize x := Nat.lt_succ_of_le hk
    rw [State.reg_setRegsFrom, State.length_readBytes, if_pos (by omega), Nat.sub_zero, State.getD_readBytes s hkx, State.base]
  · have hkx : x.val < k.val := hk
    rw [State.reg_setRegsFrom, State.length_readBytes, blockSize, if_neg (by omega)]

/-! What a fetch sees of a store (R44, R46). -/

/-- Settles O43: the stored bytes stand at `pc`, which the store keeps, so the fetch reads them as its two bytes. -/
theorem storedBytesAreFetchedByTheNextStep : Obligations.StoredBytesAreFetchedByTheNextStep := by
  unfold Obligations.StoredBytesAreFetchedByTheNextStep
  refine fun x s hwf => ⟨fun k k' hk' hx hI hpc => ?_, fun hI hpc => ?_⟩
  · obtain ⟨t, ht, hread, -, hframe⟩ := exec_storeRegs_of_range hwf hI
    have htpc : t.pc = s.pc := hframe .pc (by simp)
    have hkx : k'.val ≤ x.val := hx
    have hk : k.val ≤ x.val := by omega
    refine ⟨t, ht, ?_⟩
    rw [State.fetchWord_eq, htpc, hpc, if_pos (by omega), hread k hk, Nat.add_assoc, ← hk', hread k' hx]
  · obtain ⟨t, ht, hhundreds, htens, -, -, hframe⟩ := exec_ldB_of_range x hwf hI
    have htpc : t.pc = s.pc := hframe .pc (by simp)
    refine ⟨t, ht, ?_⟩
    rw [State.fetchWord_eq, htpc, hpc, if_pos (by omega), Option.some.injEq]
    apply BitVec.eq_of_toNat_eq
    have hv := (s.reg x).isLt
    rw [toNat_wordOf, hhundreds, htens, BitVec.toNat_ofNat]
    omega

/-! DXYN (R103 to R109). -/

/-- The bytes read at `I` cover the cells of the sprite. -/
theorem rowsCover_readBytes_iff {s : State} {n x0 y0 : Nat} {py : Fin 32} {px : Fin 64} :
    rowsCover (s.readBytes s.base n) y0 x0 py px = true ↔ spriteCovers s n x0 y0 py px := by
  rw [rowsCover_iff, State.length_readBytes, spriteCovers]
  constructor
  · rintro ⟨r, c, hr, hc, hy, hx, hb⟩
    exact ⟨r, c, hr, hc, hy, hx, by rwa [State.getD_readBytes s hr] at hb⟩
  · rintro ⟨r, c, hr, hc, hy, hx, hb⟩
    exact ⟨r, c, hr, hc, hy, hx, by rwa [State.getD_readBytes s hr]⟩

/-- The sprite's cells depend on `I` and memory alone. -/
theorem spriteCovers_congr {s t : State} (hI : t.I = s.I) (hmem : ∀ a, t.mem.read a = s.mem.read a) (n x0 y0 : Nat)
    (py : Fin 32) (px : Fin 64) : spriteCovers t n x0 y0 py px ↔ spriteCovers s n x0 y0 py px := by
  simp only [spriteCovers, hI, hmem]

/-- DXYN in range: each cell the sprite covers is flipped and no other, VF says whether a covered cell was lit, and nothing
else changes. -/
theorem exec_drw_of_range {s : State} (x y : Reg) {n : Fin 16} (hn : n = 0 ∨ s.I.toNat + n.val - 1 ≤ 0xFFF) {x0 y0 : Nat}
    (hx0 : (s.reg x).toNat % 64 = x0) (hy0 : (s.reg y).toNat % 32 = y0) :
    ∃ t hit, exec (.drw x y n) s = .next t ∧
      (∀ py px, spriteCovers s n.val x0 y0 py px → pixel t.disp py px = !pixel s.disp py px) ∧
      (∀ py px, ¬ spriteCovers s n.val x0 y0 py px → pixel t.disp py px = pixel s.disp py px) ∧
      t.reg VF = flagByte hit ∧
      (hit = true ↔ ∃ py px, spriteCovers s n.val x0 y0 py px ∧ pixel s.disp py px = true) ∧
      RegsSameBut [VF] s t ∧ SameBut [.x, .disp] s t := by
  subst hx0 hy0
  have hr : checkRange s.base n.val = true := by
    rw [checkRange, Bool.or_eq_true, decide_eq_true_eq, decide_eq_true_eq]
    exact hn.imp (fun h => congrArg Fin.val h) id
  obtain ⟨hpixel, hlatch⟩ := drawRows_spec (s.readBytes s.base n.val) (originY (s.reg y)) (originX (s.reg x))
    (by rw [State.length_readBytes]; omega) (s.disp, false)
  have hcells : ∀ py px, rowsCover (s.readBytes s.base n.val) (originY (s.reg y)) (originX (s.reg x)) py px = true ↔
      spriteCovers s n.val ((s.reg x).toNat % 64) ((s.reg y).toNat % 32) py px := fun _ _ => rowsCover_readBytes_iff
  have hexec : exec (.drw x y n) s = _ := if_pos hr
  refine ⟨_, _, hexec, fun py px hcov => ?_, fun py px hcov => ?_, State.reg_setReg_same _ _ _, ?_, execDrw_regsSameBut hexec,
    ?_⟩
  · rw [State.setReg_disp, State.setDisp_disp, hpixel, (hcells py px).2 hcov, Bool.xor_true]
  · rw [State.setReg_disp, State.setDisp_disp, hpixel, Bool.eq_false_iff.2 (mt (hcells py px).1 hcov), Bool.xor_false]
  · simpa only [Bool.false_eq_true, false_or, hcells] using hlatch
  · exact ((sameBut_setReg s VF _).mono (by simp)).trans
      (((sameBut_setDisp _ _).mono (by simp)).trans ((sameBut_setReg _ VF _).mono (by simp)))

/-- Settles O44: shape XYN decodes to it; in range it flips the sprite's cells, and otherwise it is a fault entry. -/
theorem drawFlipsExactlyTheSpriteCells : Obligations.DrawFlipsExactlyTheSpriteCells := by
  unfold Obligations.DrawFlipsExactlyTheSpriteCells
  refine ⟨fun w x y n => ?_, fun x y n s => ⟨fun hn => ?_, fun hn hout => ?_⟩⟩
  · rw [decodeWord_ok_iff_eq_encode, encode, eq_wordXY_iff (by decide) n.isLt]
    exact ⟨fun ⟨hop, hlow, hx, hy⟩ => ⟨hop, hx, hy, hlow⟩, fun ⟨hop, hx, hy, hlow⟩ => ⟨hop, hlow, hx, hy⟩⟩
  · obtain ⟨t, hit, ht, hflip, hkeep, hVF, hhit, hregs, hframe⟩ := exec_drw_of_range x y hn rfl rfl
    refine ⟨t, ht, fun py px => ⟨hflip py px, hkeep py px⟩, fun hlit => ?_, fun hdark => ?_, hregs, hframe⟩
    · rw [hVF, hhit.2 hlit]
      rfl
    · rw [hVF, Bool.eq_false_iff.2 (mt hhit.1 hdark)]
      rfl
  · exact exec_records ⟨rfl, Nat.pos_of_ne_zero fun h0 => hn (Fin.ext h0), hout⟩

/-- Settles O45: both draws cover the same cells, so each is flipped back, and what the second finds lit the first found unlit. -/
theorem spriteDrawnTwiceRestoresTheDisplay : Obligations.SpriteDrawnTwiceRestoresTheDisplay := by
  unfold Obligations.SpriteDrawnTwiceRestoresTheDisplay
  intro x y x' y' n s hn
  obtain ⟨t, -, ht, hflip, hkeep, -, -, hregs, hframe⟩ := exec_drw_of_range x y hn rfl rfl
  refine ⟨t, ht, fun hx hy => ?_⟩
  have hI : t.I = s.I := hframe .I (by simp)
  have hcov := spriteCovers_congr hI (hframe .mem (by simp)) n.val ((s.reg x).toNat % 64) ((s.reg y).toNat % 32)
  obtain ⟨u, hit, hu, hflip', hkeep', hVF, hhit, hregs', hframe'⟩ := exec_drw_of_range x' y' (hI ▸ hn) hx hy
  simp only [hcov] at hflip' hkeep' hhit
  have hdisp : u.disp = s.disp := display_ext fun py px => by
    by_cases hc : spriteCovers s n.val ((s.reg x).toNat % 64) ((s.reg y).toNat % 32) py px
    · rw [hflip' py px hc, hflip py px hc, Bool.not_not]
    · rw [hkeep' py px hc, hkeep py px hc]
  have hsame : SameBut [.x, .disp] s u := hframe.trans hframe'
  refine ⟨u, hu, hdisp, fun r hr => (hregs' r hr).trans (hregs r hr), fun e he => ?_, ?_, fun hlit => ?_⟩
  · by_cases hed : e = .disp
    · exact hed ▸ hdisp
    · exact hsame e (by simp_all)
  · rintro ⟨py, px, hc, hdark⟩
    rw [hVF, hhit.2 ⟨py, px, hc, by rw [hflip py px hc, hdark]; rfl⟩]
    rfl
  · have hmiss : hit = false := Bool.eq_false_iff.2 fun h => by
      obtain ⟨py, px, hc, hpix⟩ := hhit.1 h
      rw [hflip py px hc, hlit py px hc] at hpix
      exact nomatch hpix
    rw [hVF, hmiss]
    rfl

end Sys2Proof.Machine
end

section
/-! PROOFS, family other: the host's side. The gates of a Step, the key wait, Ticks, Load, Reset, and a placed word. -/

namespace Sys2Proof.Machine

/-! The gates of a Step (R63, R123) and the wait of FX0A (R114, R115). -/

theorem step_of_waiting {s : State} {x : Reg} (hfault : s.fault = none) (hwait : s.wait = some x) : step s = .next s := by
  rw [step, stepCore, hfault, hwait]

/-- Settles O9: the first gate answers the record and the second holds; neither reply comes with a change. -/
theorem stepGatesOnRecordedFaultThenWait : Obligations.StepGatesOnRecordedFaultThenWait := by
  unfold Obligations.StepGatesOnRecordedFaultThenWait
  refine fun _ s => ⟨fun r hr => ?_, fun q hfault hwait => ?_⟩
  · have hs := step_of_recorded hr
    exact ⟨hs, State.hostStep_of_recorded hs⟩
  · have hs := step_of_waiting hfault hwait
    exact ⟨hs, State.hostStep_of_waiting hwait hs⟩

/-- Settles O49: shape XF decodes to it, its meaning is one write of the wait, and a waiting core with no fault holds. -/
theorem waitForKeyHoldsTheStream : Obligations.WaitForKeyHoldsTheStream := by
  unfold Obligations.WaitForKeyHoldsTheStream
  refine ⟨decodesXF_of_encode (by decide) (by decide) fun _ => rfl,
    fun x s => ⟨_, rfl, s.setWait_wait (some x), sameBut_setWait s _, fun hfault => ?_⟩⟩
  have hwait := s.setWait_wait (some x)
  have hs := step_of_waiting (s := s.setWait (some x)) hfault hwait
  exact ⟨hs, State.hostStep_of_waiting hwait hs⟩

/-- Settles O50: on a waiting core KeyPress writes the register and clears the wait; on another it is discarded. -/
theorem keyPressFillsTheWaitingRegisterOnce : Obligations.KeyPressFillsTheWaitingRegisterOnce := by
  unfold Obligations.KeyPressFillsTheWaitingRegisterOnce
  refine fun font k s => ⟨fun x hwait => ?_, fun hnone => ?_⟩
  · obtain ⟨hx, hregs⟩ := reg_keyPress_of_waiting hwait k
    refine ⟨s.keyPress k, rfl, hx, s.keyPress_wait k, hregs, sameBut_keyPress s k, fun j => ?_⟩
    rw [transact, State.keyPress_of_not_waiting (s.keyPress_wait k)]
  · rw [transact, State.keyPress_of_not_waiting hnone]

/-! Ticks (R131). -/

/-- Settles O53: what a run of Ticks does to the timers, whatever the state. -/
theorem ticksCountTimersDownToZero : Obligations.TicksCountTimersDownToZero := by
  unfold Obligations.TicksCountTimersDownToZero
  exact runSchedule_ticks_spec

/-! Load (R145). -/

/-- Settles O54: an image that fits is one block write inside memory; the other two answers change nothing. -/
theorem loadWritesTheImageOrNothing : Obligations.LoadWritesTheImageOrNothing := by
  unfold Obligations.LoadWritesTheImageOrNothing
  refine fun font s => ⟨fun bs hwf hlen => ?_, fun bs hlen => s.load_of_too_large hlen, rfl, rfl, rfl⟩
  have hr := checkRange_of_fits hlen
  exact ⟨_, s.load_of_fits hlen, fun k hk => read_writeBytes_block hwf hr hk, memSameOutside_writeBytes hwf hr,
    sameBut_writeBytes s _ bs, State.wf_writeBytes hwf hr⟩

/-! Reset (R30, R141). -/

/-- The default image holds zeros alone. -/
theorem getD_defaultFont (a : Nat) : Config.defaultFont.toList.getD a 0 = 0 := by
  rw [Config.defaultFont, Vector.toList_replicate, List.getD_eq_getElem?_getD, List.getElem?_replicate]
  split <;> rfl

/-- A state right after Reset, by the transaction or as the initial state, is `resetWith` but for the random source. -/
theorem eq_resetWith_of_reset {font : Config.FontImage} {s t : State}
    (h : transact font .reset s = (.unit, t) ∨ t = State.resetWith font) :
    ∃ injected drawCount, t = { State.resetWith font with injected := injected, drawCount := drawCount } := by
  rcases h with h | rfl
  · exact ⟨_, _, (congrArg Prod.snd h).symm⟩
  · exact ⟨_, _, rfl⟩

/-- Settles O55: every element is read off `resetWith`; memory is the font image's. -/
theorem resetGivesEveryElementItsResetValue : Obligations.ResetGivesEveryElementItsResetValue := by
  unfold Obligations.ResetGivesEveryElementItsResetValue
  intro font s t h
  obtain ⟨injected, drawCount, rfl⟩ := eq_resetWith_of_reset h
  refine ⟨rfl, fun r => ?_, rfl, fun k => ?_, rfl, rfl, rfl, fun k => ?_, fun y x => ?_, rfl, rfl, read_resetWith font, ?_, rfl,
    fun hreset => ?_⟩
  · exact Vector.getElem_replicate ..
  · exact Vector.getElem_replicate ..
  · exact Vector.getElem_replicate ..
  · exact pixel_blankDisplay y x
  · exact fun hdefault a => (read_resetWith font a).trans (by rw [hdefault, getD_defaultFont, ite_self])
  · have ht := congrArg Prod.snd hreset
    exact ⟨(congrArg State.injected ht).symm, (congrArg State.drawCount ht).symm⟩

/-! A placed word (log entry 6). -/

/-- Where a word is placed: the old `pc` where a word can be fetched from it, and PROG_BASE otherwise. -/
def State.placePc (s : State) : Word := if s.pc.toNat ≤ 0xFFE then s.pc else 0x200

theorem State.placePc_le (s : State) : s.placePc.toNat ≤ 0xFFE := by
  rw [State.placePc]
  split
  · assumption
  · decide

/-- The two bytes of a word are in range where a word can be fetched. -/
theorem checkRange_of_fetchable {a : Nat} {w : Word} (h : a ≤ 0xFFE) : checkRange a (wordBytes w).length = true := by
  rw [checkRange_iff, wordBytes]
  simp only [List.length_cons, List.length_nil]
  omega

/-- Placing a whole word writes its bytes at that `pc` of a core made to run. -/
theorem withFetchWord_eq (s : State) (w : Word) : s.withFetchWord 16 w.toNat =
    (((s.setPc s.placePc).setWait none).setFault none).writeBytes s.placePc.toNat (wordBytes w) := by
  have hw : BitVec.ofNat 16 (w.toNat % 2 ^ 16) = w := by rw [Nat.mod_eq_of_lt w.isLt, BitVec.ofNat_toNat, BitVec.setWidth_eq]
  have hpc : (if checkRange s.pc.toNat 2 then s.pc else BitVec.ofNat 16 Config.progBase) = s.placePc := by
    rw [State.placePc]
    refine if_congr ?_ rfl rfl
    rw [checkRange_iff]
    omega
  rw [State.withFetchWord, placeWord, hw, hpc]

/-- The table's numbering of a word's bits reads every instruction from its word. -/
theorem decodeTableWord_encode (i : Instr) : decodeTableWord 16 (encode i).toNat = some i := by
  rw [decodeTableWord, Nat.mod_eq_of_lt (encode i).isLt, BitVec.ofNat_toNat, BitVec.setWidth_eq, ← encodeBytes,
    ← List.append_nil (encodeBytes i), decodeBytes_encodeBytes_append]

/-- The state with the instruction's word placed fetches that word, whatever memory held there. -/
theorem fetchWord_withFetchWord {s : State} (hwf : s.mem.wf = true) (w : Word) :
    (s.withFetchWord 16 w.toNat).fetchWord = some w := by
  have hle := s.placePc_le
  have hr : checkRange s.placePc.toNat (wordBytes w).length = true := checkRange_of_fetchable hle
  have hread := fun k => read_writeBytes_block (s := ((s.setPc s.placePc).setWait none).setFault none) (k := k) hwf hr
  have hhigh := hread 0 (by simp [wordBytes])
  have hlow := hread 1 (by simp [wordBytes])
  rw [withFetchWord_eq, State.fetchWord_eq]
  refine (if_pos hle).trans (congrArg some ?_)
  exact (congrArg₂ wordOf hhigh hlow).trans (wordOf_wordBytes w)

/-- Settles O56: the two bytes placed at `pc` are the fetched word of a running core, which is the instruction's. -/
theorem placedWordIsWhatTheNextStepRuns : Obligations.PlacedWordIsWhatTheNextStepRuns := by
  unfold Obligations.PlacedWordIsWhatTheNextStepRuns
  intro s i hwf
  have hr : checkRange s.placePc.toNat (wordBytes (encode i)).length = true := checkRange_of_fetchable s.placePc_le
  have hu := withFetchWord_eq s (encode i)
  have hrun : (s.withFetchWord 16 (encode i).toNat).running := by
    rw [hu]
    exact ⟨rfl, rfl⟩
  refine ⟨_, rfl, step_of_decoded hrun (fetchWord_withFetchWord hwf _) (decodeWord_ok_iff_eq_encode.2 rfl), ?_, ?_, ?_,
    decodeTableWord_encode i⟩ <;> rw [hu]
  · rfl
  · exact ((sameBut_setPc s _).mono (by simp)).trans (((sameBut_setWait _ _).mono (by simp)).trans
      (((sameBut_setFault _ _).mono (by simp)).trans ((sameBut_writeBytes _ _ _).mono (by simp))))
  · exact memSameOutside_writeBytes (s := ((s.setPc s.placePc).setWait none).setFault none) hwf hr

end Sys2Proof.Machine
end
